-- ==== Sys2Proof/Word.lean ====
section
/-! DEFINITION. The word and byte types of CFTE (spec/00_scope.md R9: XLEN = 32; spec/10_state.md R27: BUF is a byte array). -/

namespace Sys2Proof

/-- A 32-bit unsigned value: an operand register, CMD, STATUS, an identifier, a timing field (R9, R20, R22, R24). -/
abbrev Word := BitVec 32

/-- An 8-bit value: a byte of BUF, of a payload, or a flags, length or code byte (R27, R28, R30). -/
abbrev Byte := BitVec 8

end Sys2Proof
end

