-- ==== Sys2Proof/Config.lean ====
section
/-! DEFINITION. The constants of spec/00_scope.md R7 and R9, the type of the three flag masks that R8 leaves open, with their
defaults, and the one free value of the model: what a byte of BUF holds before anything has written it (spec/10_state.md R36). -/

namespace Sys2Proof

/-- The three parameters of R8: which bit of a frame's flags byte is the Extended, the fd and the brs flag. -/
structure FlagMasks where
  ext : Byte
  fd  : Byte
  brs : Byte
  deriving DecidableEq, Repr

/-- R8's default masks 0x02, 0x04, 0x08. PRESUMED (the spec takes them from general knowledge, G1); see assumption 1. -/
def Config.defaultMasks : FlagMasks := { ext := 0x02, fd := 0x04, brs := 0x08 }

/-- R7: payload capacity of a classic frame, bytes. -/
def Config.capClassic : Nat := 8

/-- R7: payload capacity of an FD frame, bytes. -/
def Config.capFd : Nat := 64

/-- R7: identifier mask of Standard addressing, 11 bits. -/
def Config.maskStd : Word := 0x000007FF

/-- R7: identifier mask of Extended addressing, 29 bits. -/
def Config.maskExt : Word := 0x1FFFFFFF

/-- R7: the constant of the FD descriptor, in Hz. -/
def Config.fClock : Nat := 80000000

/-- R9: size of BUF, bytes. -/
def Config.bufSize : Nat := 128

/-- R166: the inclusive bounds (minimum, maximum) of prescaler, sjw, tseg1, tseg2 of a classic timing, in the order checked. -/
def Config.classicBounds : List (Nat × Nat) := [(1, 64), (1, 4), (1, 16), (1, 8)]

/-- R176: the inclusive bounds of the nominal phase. -/
def Config.nominalBounds : List (Nat × Nat) := [(1, 1024), (1, 128), (1, 256), (1, 128)]

/-- R176: the inclusive bounds of the data phase. -/
def Config.dataBounds : List (Nat × Nat) := [(1, 1024), (1, 16), (1, 32), (1, 16)]

/-- The free value of the model (R36, R231: "each byte holds an arbitrary value until the host or a command writes it"):
`bufInit k j` is what BUF[j] holds after the reset number `k` as long as nothing has written it. No body: nothing can
be proved about it, so every claim holds for every initial BUF. See assumption 2. -/
opaque Config.bufInit : Nat → Nat → Byte

end Sys2Proof
end

