-- ==== Sys2Proof/Syntax.lean ====
section
/-! DEFINITION. The thirty commands of CFTE, one constructor per row of spec/opcode_table.json in the table's order
(spec/30_encoding.md R73), with the one-bit fields of R70 as typed arguments; and the record of a command word's fields. -/

namespace Sys2Proof

/-- A slot index: the field `a` or `b` of a command word, used as the index 0 or 1 (R70, R76). -/
abbrev Slot := Fin 2

/-- The addressing mode, field `ext` of a frame constructor (R14, R70). -/
inductive Mode where
  | standard
  | extended
  deriving DecidableEq, Repr

/-- The commands of R73. -/
inductive Instr where
  | nop
  | cfnew (a : Slot) (mode : Mode)
  | cfid (a : Slot)
  | cfstd (a : Slot)
  | cfext (a : Slot)
  | cflen (a : Slot)
  | cfdata (a : Slot)
  | cfwr (a : Slot)
  | cfeq (a b : Slot)
  | cfld (a : Slot)
  | cfst (a : Slot)
  | ffnew (a : Slot) (mode : Mode) (fd brs : Bool)
  | ffid (a : Slot)
  | ffstd (a : Slot)
  | ffext (a : Slot)
  | fflen (a : Slot)
  | ffdata (a : Slot)
  | ffwr (a : Slot)
  | ffeq (a b : Slot)
  | ffld (a : Slot)
  | ffst (a : Slot)
  | ffdlc (a : Slot)
  | fffd (a : Slot)
  | ffbrs (a : Slot)
  | dlcenc
  | dlcdec
  | btnew
  | btenc
  | fbtnew
  | fbtenc
  deriving DecidableEq, Repr

/-- The five formats of R72: which one-bit fields are free. -/
inductive Format where
  | n
  | a
  | ab
  | am
  | amf
  deriving DecidableEq, Repr

/-- The fields of a command word (R70): opcode in bits 7:0, five one-bit fields in bits 8 to 12, reserved bits 31:13. -/
structure Fields where
  op       : BitVec 8
  a        : Bool
  b        : Bool
  ext      : Bool
  fd       : Bool
  brs      : Bool
  reserved : BitVec 19
  deriving DecidableEq, Repr

end Sys2Proof
end

