-- ==== Sys2Proof/WellFormed.lean ====
section
/-! DEFINITION. The checks on syntax and on the parameters. A term of Instr has no ill-formed value: its slot indices, mode and
flags are typed with exactly the values a one-bit field can hold (spec/30_encoding.md R70, R76). What can be ill-formed is a
word's field record, against the format its opcode has (R71, R72), and a choice of flag masks (spec/00_scope.md R8). -/

namespace Sys2Proof

/-- R71: every field that the format does not use is 0. `Format.n` frees none, `a` frees `a`, `ab` frees `a` and `b`,
`am` frees `a` and `ext`, `amf` frees `a`, `ext`, `fd` and `brs` (R72). -/
def Fields.unusedZero (f : Fields) : Format → Bool
  | .n   => !f.a && !f.b && !f.ext && !f.fd && !f.brs
  | .a   => !f.b && !f.ext && !f.fd && !f.brs
  | .ab  => !f.ext && !f.fd && !f.brs
  | .am  => !f.b && !f.fd && !f.brs
  | .amf => !f.b

/-- R70: bits 31:13 must be 0. -/
def Fields.reservedZero (f : Fields) : Bool := f.reserved == 0

/-- A field record is well formed for a format: reserved bits and unused fields are 0 (R71). -/
def Fields.wellFormed (f : Fields) (fmt : Format) : Bool := f.reservedZero && f.unusedZero fmt

/-- The byte has exactly one bit set. -/
def oneBit (m : Byte) : Bool :=
  m == 0x01 || m == 0x02 || m == 0x04 || m == 0x08 || m == 0x10 || m == 0x20 || m == 0x40 || m == 0x80

/-- R8's constraint on the parameters: one bit set in each mask, the three distinct. -/
def FlagMasks.wellFormed (m : FlagMasks) : Bool :=
  oneBit m.ext && oneBit m.fd && oneBit m.brs && m.fd != m.ext && m.brs != m.ext && m.brs != m.fd

end Sys2Proof
end

