-- ==== Sys2Proof/Decode.lean ====
section
/-! DEFINITION. Decoding a command word, total on all 2^32 words and rejecting by name (spec/30_encoding.md R70 to R75), the
encoder written from the same table (R73, R78), and the host's decodeTableWord. -/

namespace Sys2Proof

/-- Why a word is no command (R75): its opcode is not assigned, a reserved bit is set, or a field its format does not use is set. -/
inductive Reject where
  | unassignedOpcode
  | reservedBit
  | unusedField
  deriving DecidableEq, Repr

/-- R73: the thirty assigned opcodes, each with its format. -/
def opcodeTable : List (BitVec 8 × Format) :=
  [(0x00, .n), (0x10, .am), (0x11, .a), (0x12, .a), (0x13, .a), (0x14, .a), (0x15, .a), (0x16, .a), (0x17, .ab), (0x18, .a),
   (0x19, .a)] ++
  [(0x20, .amf), (0x21, .a), (0x22, .a), (0x23, .a), (0x24, .a), (0x25, .a), (0x26, .a), (0x27, .ab), (0x28, .a), (0x29, .a),
   (0x2A, .a), (0x2B, .a), (0x2C, .a)] ++
  [(0x30, .n), (0x31, .n), (0x40, .n), (0x41, .n), (0x48, .n), (0x49, .n)]

/-- The format of an opcode, if it is assigned (R73). -/
def formatOf (op : BitVec 8) : Option Format := (opcodeTable.find? (fun r => r.1 == op)).map Prod.snd

/-- R70: the fields at their bit positions. -/
def Fields.ofWord (w : Word) : Fields :=
  { op       := w.extractLsb' 0 8
    a        := w.getLsbD 8
    b        := w.getLsbD 9
    ext      := w.getLsbD 10
    fd       := w.getLsbD 11
    brs      := w.getLsbD 12
    reserved := w.extractLsb' 13 19 }

/-- One bit as a word, for R78's `a<<8` and the like. -/
def bitWord (b : Bool) : Word := if b then 1 else 0

/-- R70, R78: the word with these fields. -/
def Fields.toWord (f : Fields) : Word :=
  f.op.setWidth 32 ||| (bitWord f.a <<< 8) ||| (bitWord f.b <<< 9) ||| (bitWord f.ext <<< 10) |||
    (bitWord f.fd <<< 11) ||| (bitWord f.brs <<< 12) ||| (f.reserved.setWidth 32 <<< 13)

/-- R76: a one-bit field used as the index 0 or 1. -/
def slotOf (b : Bool) : Slot := if b then 1 else 0

/-- R70: 0 = Standard, 1 = Extended. -/
def modeOf (ext : Bool) : Mode := if ext then .extended else .standard

/-- R73, R76: the command of an opcode, with the free fields of its format as arguments. -/
def Fields.instr (f : Fields) : Option Instr :=
  match f.op.toNat with
  | 0x00 => some .nop
  | 0x10 => some (.cfnew (slotOf f.a) (modeOf f.ext))
  | 0x11 => some (.cfid (slotOf f.a))
  | 0x12 => some (.cfstd (slotOf f.a))
  | 0x13 => some (.cfext (slotOf f.a))
  | 0x14 => some (.cflen (slotOf f.a))
  | 0x15 => some (.cfdata (slotOf f.a))
  | 0x16 => some (.cfwr (slotOf f.a))
  | 0x17 => some (.cfeq (slotOf f.a) (slotOf f.b))
  | 0x18 => some (.cfld (slotOf f.a))
  | 0x19 => some (.cfst (slotOf f.a))
  | 0x20 => some (.ffnew (slotOf f.a) (modeOf f.ext) f.fd f.brs)
  | 0x21 => some (.ffid (slotOf f.a))
  | 0x22 => some (.ffstd (slotOf f.a))
  | 0x23 => some (.ffext (slotOf f.a))
  | 0x24 => some (.fflen (slotOf f.a))
  | 0x25 => some (.ffdata (slotOf f.a))
  | 0x26 => some (.ffwr (slotOf f.a))
  | 0x27 => some (.ffeq (slotOf f.a) (slotOf f.b))
  | 0x28 => some (.ffld (slotOf f.a))
  | 0x29 => some (.ffst (slotOf f.a))
  | 0x2A => some (.ffdlc (slotOf f.a))
  | 0x2B => some (.fffd (slotOf f.a))
  | 0x2C => some (.ffbrs (slotOf f.a))
  | 0x30 => some .dlcenc
  | 0x31 => some .dlcdec
  | 0x40 => some .btnew
  | 0x41 => some .btenc
  | 0x48 => some .fbtnew
  | 0x49 => some .fbtenc
  | _    => none

/-- R74 on a field record: an unassigned opcode is illegal, then a word with a reserved bit or an unused field set is illegal,
otherwise the record is the command of its opcode. -/
def decodeFields (f : Fields) : Except Reject Instr :=
  match formatOf f.op, f.instr with
  | some fmt, some i =>
    if f.reservedZero = false then .error .reservedBit
    else if f.unusedZero fmt = false then .error .unusedField
    else .ok i
  | _, _ => .error .unassignedOpcode

/-- R74: decoding of the 32-bit word written to CMD. -/
def decode (w : Word) : Except Reject Instr := decodeFields (Fields.ofWord w)

/-- R78: the bit of a slot index. -/
def slotBit (a : Slot) : Bool := a == 1

/-- R78: `ext` = 0 for STD, 1 for EXT. -/
def modeBit : Mode → Bool
  | .standard => false
  | .extended => true

/-- A field record with an opcode and every other field 0. -/
def opFields (op : BitVec 8) : Fields :=
  { op := op, a := false, b := false, ext := false, fd := false, brs := false, reserved := 0 }

/-- A record of format A. -/
def slotFields (op : BitVec 8) (a : Slot) : Fields := { opFields op with a := slotBit a }

/-- The field record of a command (R72, R73, R78). -/
def Instr.fields : Instr → Fields
  | .nop => opFields 0x00
  | .cfnew a m => { slotFields 0x10 a with ext := modeBit m }
  | .cfid a => slotFields 0x11 a
  | .cfstd a => slotFields 0x12 a
  | .cfext a => slotFields 0x13 a
  | .cflen a => slotFields 0x14 a
  | .cfdata a => slotFields 0x15 a
  | .cfwr a => slotFields 0x16 a
  | .cfeq a b => { slotFields 0x17 a with b := slotBit b }
  | .cfld a => slotFields 0x18 a
  | .cfst a => slotFields 0x19 a
  | .ffnew a m fd brs => { slotFields 0x20 a with ext := modeBit m, fd := fd, brs := brs }
  | .ffid a => slotFields 0x21 a
  | .ffstd a => slotFields 0x22 a
  | .ffext a => slotFields 0x23 a
  | .fflen a => slotFields 0x24 a
  | .ffdata a => slotFields 0x25 a
  | .ffwr a => slotFields 0x26 a
  | .ffeq a b => { slotFields 0x27 a with b := slotBit b }
  | .ffld a => slotFields 0x28 a
  | .ffst a => slotFields 0x29 a
  | .ffdlc a => slotFields 0x2A a
  | .fffd a => slotFields 0x2B a
  | .ffbrs a => slotFields 0x2C a
  | .dlcenc => opFields 0x30
  | .dlcdec => opFields 0x31
  | .btnew => opFields 0x40
  | .btenc => opFields 0x41
  | .fbtnew => opFields 0x48
  | .fbtenc => opFields 0x49

/-- The command word of a command (R78). -/
def encode (i : Instr) : Word := i.fields.toWord

/-- A command as syntax is well formed when its field record is well formed for the format of its opcode (R71). Every term
of Instr is: its arguments are typed with exactly the values of a one-bit field. -/
def Instr.wellFormed (i : Instr) : Bool :=
  match formatOf i.fields.op with
  | some fmt => i.fields.wellFormed fmt
  | none => false

/-- What the decoder reads from an instruction of the opcode table whose `nbits` bits are `w`, the bits above being 0. Every
command is one 32-bit word, delivered as a number and not as bytes (R57, R70). -/
def decodeTableWord (nbits w : Nat) : Option Instr :=
  match decode (BitVec.ofNat 32 (w % 2 ^ nbits)) with
  | .ok i => some i
  | .error _ => none

end Sys2Proof
end

