-- ==== Sys2Proof/Machine/State.lean ====
section
/-! DEFINITION. The state of CFTE (spec/10_state.md), the host's accesses and what they answer (spec/20_memory.md R52, R53),
the reasons a step can stop, and the state after reset (R36, spec/70_reset_and_hazards.md R231). -/

namespace Sys2Proof.Machine

/-- R28: a classic frame slot, stored as the classic wire structure, with its valid bit. -/
structure ClassicFrame where
  id    : Word
  flags : Byte
  len   : Byte
  data  : Vector Byte 8
  v     : Bool
  deriving DecidableEq, Repr

/-- R30: an FD frame slot, stored as the FD wire structure, with its valid bit. -/
structure FdFrame where
  id    : Word
  flags : Byte
  dlc   : Byte
  data  : Vector Byte 64
  v     : Bool
  deriving DecidableEq, Repr

/-- R32, R33: one quadruple of timing fields, each a 32-bit unsigned value. -/
structure Quad where
  prescaler : Word
  sjw       : Word
  tseg1     : Word
  tseg2     : Word
  deriving DecidableEq, Repr

/-- R32: the register BT. -/
structure ClassicTiming where
  q : Quad
  v : Bool
  deriving DecidableEq, Repr

/-- R33: the register FBT. -/
structure FdTiming where
  nom  : Quad
  data : Quad
  v    : Bool
  deriving DecidableEq, Repr

/-- What the outside does to the block, one event at a time (R15, R53, R230): a read or a write of 8, 16 or 32 bits at an offset
of the 256-byte window, legal or not, or the assertion of the reset input. -/
inductive HostEvent where
  | read8   (off : BitVec 8)
  | read16  (off : BitVec 8)
  | read32  (off : BitVec 8)
  | write8  (off : BitVec 8) (v : Byte)
  | write16 (off : BitVec 8) (v : BitVec 16)
  | write32 (off : BitVec 8) (v : Word)
  | reset
  deriving DecidableEq, Repr

/-- What a legal read returned to the host (R53): a byte of BUF or a whole 32-bit register. -/
inductive Answer where
  | byte (b : Byte)
  | word (w : Word)
  deriving DecidableEq, Repr

/-- The machine. `x` to `fbt` are the block's architectural state. `masks`, `script`, `answers` and `resets` are the MODEL'S own:
the parameters of the step function that R35 names (the flag masks and the sequence of host accesses), what the host has
read during the run (R233), and the counter that picks the free initial contents of BUF (assumptions 1, 2, 3). -/
structure State where
  /-- R20: the operand registers X0 to X7. -/
  x       : Vector Word 8
  /-- R24: STATUS bits 3:0, the error code of the most recent command. -/
  err     : BitVec 4
  /-- R24: STATUS bits 7:4, the information about the error. -/
  einfo   : BitVec 4
  /-- R27: BUF, as the bytes written since reset: (index, byte), indices strictly rising. -/
  buf     : List Host.Cell
  /-- R28: CF[0] and CF[1]. -/
  cf      : Vector ClassicFrame 2
  /-- R30: FF[0] and FF[1]. -/
  ff      : Vector FdFrame 2
  /-- R32: BT. -/
  bt      : ClassicTiming
  /-- R33: FBT. -/
  fbt     : FdTiming
  /-- R8, R35: the flag masks, a parameter of the model; no step changes them. -/
  masks   : FlagMasks
  /-- R35: the host's accesses still to come, next first. -/
  script  : List HostEvent
  /-- R233: what the host has read, oldest first. -/
  answers : List Answer
  /-- How many times the reset input was asserted; picks the free contents of BUF (R36). -/
  resets  : Nat
  deriving DecidableEq, Repr

/-- Why the machine stops with a fault. Every fault here is in a state no run reaches: a slot or timing register whose valid bit is
set breaks the invariant the spec gives it, so the spec gives the command no meaning there. Stopping is SAFE: no claim can
lean on a value the spec does not give. -/
inductive Fault where
  /-- A valid classic slot with `len` above 8 (against R29), raised by CFDATA, CFWR and CFEQ, whose view has no meaning. Safe. -/
  | classicLength
  /-- A valid FD slot with `dlc` above 15 (against R31), raised by FFLEN, FFDATA, FFWR and FFEQ: R111 does not define `len` there. Safe. -/
  | fdCode
  /-- BT valid with a field outside R166's bounds (against R32), raised by BTENC: R11 defines no subtraction below zero. Safe. -/
  | timingRange
  /-- FBT valid with a field outside R176's bounds (against R33), raised by FBTENC: R183 no longer bounds the text. Safe. -/
  | fdTimingRange
  deriving DecidableEq, Repr

/-- Why a step has no meaning. -/
inductive Refusal where
  /-- Raised by an arm of exec for an instruction without a meaning. No arm raises it in this model. Safe. -/
  | notModelled (mnemonic : String)
  /-- Raised by step for a host access outside the legal set (R54): the block answers with a bus error and changes nothing, and
  "a model treats an illegal access as a refusal". Safe. -/
  | busError (access : HostEvent)
  deriving DecidableEq, Repr

/-- The outcome of a step of this machine. -/
abbrev Result := Host.Outcome State Fault Refusal

/-- A classic slot after reset: not valid. Its content is unspecified and unobservable (R36); 0 is a DESIGN CHOICE, assumption 4. -/
def ClassicFrame.reset : ClassicFrame := { id := 0, flags := 0, len := 0, data := Vector.replicate 8 0, v := false }

/-- An FD slot after reset: not valid; content as for a classic slot (assumption 4). -/
def FdFrame.reset : FdFrame := { id := 0, flags := 0, dlc := 0, data := Vector.replicate 64 0, v := false }

/-- The fields of an invalid timing register after reset (assumption 4). -/
def Quad.reset : Quad := { prescaler := 0, sjw := 0, tseg1 := 0, tseg2 := 0 }

/-- The state after reset (R36, R231), with the default masks (R8) and no host access pending. -/
def State.reset : State :=
  { x       := Vector.replicate 8 0
    err     := 0
    einfo   := 0
    buf     := []
    cf      := Vector.replicate 2 ClassicFrame.reset
    ff      := Vector.replicate 2 FdFrame.reset
    bt      := { q := Quad.reset, v := false }
    fbt     := { nom := Quad.reset, data := Quad.reset, v := false }
    masks   := Config.defaultMasks
    script  := []
    answers := []
    resets  := 0 }

end Sys2Proof.Machine
end

