-- ==== Sys2Proof/Machine/Flags.lean ====
section
/-! DEFINITION. The error codes (spec/60_exceptions.md R200), the STATUS word (spec/10_state.md R24) and a frame's flags byte (R28, R30). -/

namespace Sys2Proof.Machine

/-- R200: the errors a command can raise. -/
inductive CommandError where
  | frameTooLarge
  | timingOutOfBounds
  | illegalCommand
  | invalidSource
  | lengthCodeInvalid
  deriving DecidableEq, Repr

/-- R200: the code of an error. -/
def CommandError.code : CommandError → BitVec 4
  | .frameTooLarge     => 1
  | .timingOutOfBounds => 2
  | .illegalCommand    => 8
  | .invalidSource     => 9
  | .lengthCodeInvalid => 10

/-- A valid bit as a one-bit value. -/
def validBit (v : Bool) : BitVec 1 := if v then 1 else 0

/-- R24: STATUS as the host reads it: bits 31:14 zero, the six valid bits in 13:8, `einfo` in 7:4, `err` in 3:0. -/
def State.status (s : State) : Word :=
  (0 : BitVec 18) ++ validBit s.fbt.v ++ validBit s.bt.v ++ validBit s.ff[1].v ++ validBit s.ff[0].v ++
    validBit s.cf[1].v ++ validBit s.cf[0].v ++ s.einfo ++ s.err

/-- Some bit of the mask is set in the flags byte: `(flags & MASK) != 0` (R93, R131, R132). -/
def hasFlag (flags mask : Byte) : Bool := (flags &&& mask) != 0

/-- One term of R91's and R121's flags byte: the mask if the argument is set, else 0. -/
def flagIf (c : Bool) (mask : Byte) : Byte := if c then mask else 0

/-- R91: the flags byte CFNEW stores. -/
def classicFlags (m : FlagMasks) (mode : Mode) : Byte := flagIf (mode == .extended) m.ext

/-- R121: the flags byte FFNEW stores. -/
def fdFlags (m : FlagMasks) (mode : Mode) (fd brs : Bool) : Byte :=
  flagIf (mode == .extended) m.ext ||| flagIf fd m.fd ||| flagIf brs m.brs

end Sys2Proof.Machine
end

