-- ==== Sys2Proof/Machine/Operands.lean ====
section
/-! DEFINITION. What the commands compute from their operands: identifier masks (spec/00_scope.md R12), the little-endian word
of an image (spec/20_memory.md R56), the DLC functions (spec/41_dlc_map.md R110, R111), the range checks (R166, R176),
the packed classic timing (R168) and the text of the FD descriptor (R180, R181). -/

namespace Sys2Proof.Machine

/-- R12: `mask(ext)`. -/
def idMask : Mode → Word
  | .standard => Config.maskStd
  | .extended => Config.maskExt

/-- The mode a stored flags byte says: Extended if the `EXT_MASK` bit is set (R28, R93). -/
def storedMode (m : FlagMasks) (flags : Byte) : Mode := if hasFlag flags m.ext then .extended else .standard

/-- R93, R123: the identifier masked by the stored mode flag. -/
def visibleId (m : FlagMasks) (flags : Byte) (id : Word) : Word := id &&& idMask (storedMode m flags)

/-- A Boolean result as the value 1 or 0 (R94, R99). -/
def boolWord (b : Bool) : Word := if b then 1 else 0

/-- R12, R56: the 32-bit value of four bytes, least significant first. -/
def le32 (b0 b1 b2 b3 : Byte) : Word := b3 ++ b2 ++ b1 ++ b0

/-- R12, R56: the four bytes of a 32-bit value, least significant first. -/
def bytesLe32 (w : Word) : List Byte := [w.extractLsb' 0 8, w.extractLsb' 8 8, w.extractLsb' 16 8, w.extractLsb' 24 8]

/-- R110: byte length to code; `none` above 64, where the function is not defined. -/
def calcDlc (n : Nat) : Option Nat :=
  if n ≤ 8 then some n
  else if n ≤ 12 then some 9
  else if n ≤ 16 then some 10
  else if n ≤ 20 then some 11
  else if n ≤ 24 then some 12
  else if n ≤ 32 then some 13
  else if n ≤ 48 then some 14
  else if n ≤ 64 then some 15
  else none

/-- R111: the lengths of the codes 0 to 15. -/
def dlcLengths : List Nat := [0, 1, 2, 3, 4, 5, 6, 7, 8, 12, 16, 20, 24, 32, 48, 64]

/-- R111: code to byte length; `none` above 15, where the function is not defined. -/
def dlcLen (c : Nat) : Option Nat := dlcLengths[c]?

/-- R166, R176: the value lies inside the inclusive bounds, compared as unsigned integers. -/
def inBounds (b : Nat × Nat) (v : Word) : Bool := decide (b.1 ≤ v.toNat) && decide (v.toNat ≤ b.2)

/-- R167, R177: the index of the first value outside its bounds, in ascending order; `none` if all are inside. -/
def firstOutOfBounds : List (Nat × Nat) → List Word → Option Nat
  | b :: bs, v :: vs => if inBounds b v then (firstOutOfBounds bs vs).map (· + 1) else some 0
  | _, _ => none

/-- The fields of a quadruple in the order of the bounds tables: prescaler, sjw, tseg1, tseg2. -/
def Quad.fields (q : Quad) : List Word := [q.prescaler, q.sjw, q.tseg1, q.tseg2]

/-- R166, R32: every field lies inside the classic bounds. -/
def Quad.classicOk (q : Quad) : Bool := (firstOutOfBounds Config.classicBounds q.fields).isNone

/-- R176: the bounds of the eight fields of an FD timing, nominal phase first (R178). -/
def fdBounds : List (Nat × Nat) := Config.nominalBounds ++ Config.dataBounds

/-- R176, R33: every field of both phases lies inside its bounds. -/
def FdTiming.inRange (t : FdTiming) : Bool := (firstOutOfBounds fdBounds (t.nom.fields ++ t.data.fields)).isNone

/-- R168, R169: the packed value, 16 bits wide. -/
def packTiming (q : Quad) : BitVec 16 :=
  ((q.sjw - 1).setWidth 16 <<< 14) ||| ((q.prescaler - 1).setWidth 16 <<< 8) ||| ((q.tseg2 - 1).setWidth 16 <<< 4) |||
    (q.tseg1 - 1).setWidth 16

/-- The ASCII bytes of a text (R180). -/
def ascii (text : String) : List Byte := text.toList.map fun c => BitVec.ofNat 8 c.toNat

/-- The decimal digits of `v` as ASCII bytes 0x30 + digit, most significant first, at most `fuel + 1` of them. -/
def decDigits : Nat → Nat → List Byte
  | 0, v => [BitVec.ofNat 8 (0x30 + v % 10)]
  | fuel + 1, v => if v < 10 then [BitVec.ofNat 8 (0x30 + v)] else decDigits fuel (v / 10) ++ [BitVec.ofNat 8 (0x30 + v % 10)]

/-- R181: the decimal text of an unsigned 32-bit value, which has at most ten digits. -/
def dec (w : Word) : List Byte := decDigits 9 w.toNat

/-- R180: the descriptor's fixed first item and the eight keys, with the commas and equals signs R179 writes. -/
def keyFClock : List Byte := ascii "f_clock="
def keyNomBrp : List Byte := ascii ",nom_brp="
def keyNomTseg1 : List Byte := ascii ",nom_tseg1="
def keyNomTseg2 : List Byte := ascii ",nom_tseg2="
def keyNomSjw : List Byte := ascii ",nom_sjw="
def keyDataBrp : List Byte := ascii ",data_brp="
def keyDataTseg1 : List Byte := ascii ",data_tseg1="
def keyDataTseg2 : List Byte := ascii ",data_tseg2="
def keyDataSjw : List Byte := ascii ",data_sjw="

/-- R179, R180, R184: the text of the descriptor, without the NUL. -/
def descriptor (t : FdTiming) : List Byte :=
  keyFClock ++ dec (BitVec.ofNat 32 Config.fClock) ++
  keyNomBrp ++ dec t.nom.prescaler ++ keyNomTseg1 ++ dec t.nom.tseg1 ++ keyNomTseg2 ++ dec t.nom.tseg2 ++
    keyNomSjw ++ dec t.nom.sjw ++
  keyDataBrp ++ dec t.data.prescaler ++ keyDataTseg1 ++ dec t.data.tseg1 ++ keyDataTseg2 ++ dec t.data.tseg2 ++
    keyDataSjw ++ dec t.data.sjw

end Sys2Proof.Machine
end

