-- ==== Sys2Proof/Machine/Ops.lean ====
section
/-! DEFINITION. The named operations over BUF, the operand registers, the slots and STATUS; raising an error and ending a command
(spec/60_exceptions.md R203, R204); and the shared shapes of the commands' meanings. CFTE has no trap entry and no trap
return (R211, R212): the entry IS `State.raise`, and there is nothing to restore. -/

namespace Sys2Proof.Machine

/-! ### BUF as sparse memory -/

/-- The byte written last at an index, if any was written since reset. -/
def Mem.read : List Host.Cell → Nat → Option Byte
  | [], _ => none
  | (k, v) :: m, j => if j = k then some v else Mem.read m j

/-- Write one byte, keeping the indices strictly rising. -/
def Mem.write : List Host.Cell → Nat → Byte → List Host.Cell
  | [], j, b => [(j, b)]
  | (k, v) :: m, j, b =>
    if j < k then (j, b) :: (k, v) :: m
    else if j = k then (j, b) :: m
    else (k, v) :: Mem.write m j b

/-- The indices rise strictly from a lower bound and lie inside BUF. -/
def Mem.wfFrom : Nat → List Host.Cell → Bool
  | _, [] => true
  | lo, (k, _) :: m => decide (lo ≤ k) && decide (k < Config.bufSize) && Mem.wfFrom (k + 1) m

/-- The canonical form of BUF: indices strictly rising, all in 0..127 (assumption 2 says why no value is left out of it). -/
def Mem.wf (m : List Host.Cell) : Bool := Mem.wfFrom 0 m

/-- What BUF[j] reads as (R61): the byte written last, or the arbitrary initial byte if nothing has written it since reset (R36). -/
def State.bufByte (s : State) (j : Nat) : Byte := (Mem.read s.buf j).getD (Config.bufInit s.resets j)

/-- R12: `MemWrite(j, 1, b)`. -/
def State.setBufByte (s : State) (j : Nat) (b : Byte) : State := { s with buf := Mem.write s.buf j b }

/-- R12: `MemWrite(at, n, bs)`: the bytes in index order. -/
def State.writeBuf : State → Nat → List Byte → State
  | s, _, [] => s
  | s, j, b :: bs => State.writeBuf (s.setBufByte j b) (j + 1) bs

/-! ### Registers and slots -/

/-- R12: `x[i] <- w`. -/
def State.setX (s : State) (i : Fin 8) (w : Word) : State := { s with x := s.x.set i.val w i.isLt }

/-- Write the whole slot CF[a]. -/
def State.setCf (s : State) (a : Slot) (f : ClassicFrame) : State := { s with cf := s.cf.set a.val f a.isLt }

/-- Write the whole slot FF[a]. -/
def State.setFf (s : State) (a : Slot) (f : FdFrame) : State := { s with ff := s.ff.set a.val f a.isLt }

/-! ### The end of a command -/

/-- R203: `raise E(info)`: err and einfo are written and nothing else. This is the whole of taking an exception (R211). -/
def State.raise (s : State) (e : CommandError) (info : BitVec 4) : State := { s with err := e.code, einfo := info }

/-- R204: `ok`: err and einfo become 0. -/
def State.ok (s : State) : State := { s with err := 0, einfo := 0 }

/-- A command that returns a value: `x[0] <- w; ok`. -/
def State.answer (s : State) (w : Word) : State := (s.setX 0 w).ok

/-- R206: the word written to CMD is no command. -/
def State.illegalCommand (s : State) : State := s.raise .illegalCommand 0

/-! ### Reading a value register, valid or not (R207) -/

/-- Read CF[a], raising `InvalidSource(info)` if it is not valid. -/
def withClassic (s : State) (a : Slot) (info : BitVec 4) (k : ClassicFrame → Result) : Result :=
  if s.cf[a].v then k s.cf[a] else .next (s.raise .invalidSource info)

/-- Read FF[a], raising `InvalidSource(info)` if it is not valid. -/
def withFd (s : State) (a : Slot) (info : BitVec 4) (k : FdFrame → Result) : Result :=
  if s.ff[a].v then k s.ff[a] else .next (s.raise .invalidSource info)

/-- A classic accessor: the result of reading CF[a] goes to X0 (R93 to R96). -/
def readClassic (s : State) (a : Slot) (f : ClassicFrame → Word) : Result :=
  withClassic s a 0 fun c => .next (s.answer (f c))

/-- An FD accessor: the result of reading FF[a] goes to X0 (R123 to R125, R130 to R132). -/
def readFd (s : State) (a : Slot) (f : FdFrame → Word) : Result :=
  withFd s a 0 fun c => .next (s.answer (f c))

/-- The length of a classic frame's view: `len`, which R29 bounds by 8; a fault in a state that breaks R29. -/
def withClassicLength (c : ClassicFrame) (k : Nat → Result) : Result :=
  if c.len.toNat ≤ Config.capClassic then k c.len.toNat else .fault .classicLength

/-- The length of an FD frame's view: `len(dlc)` (R111), which R31 keeps defined; a fault in a state that breaks R31. -/
def withFdLength (c : FdFrame) (k : Nat → Result) : Result :=
  match dlcLen c.dlc.toNat with
  | some n => k n
  | none => .fault .fdCode

/-! ### Payloads, views and images -/

/-- R91, R121: `n` bytes of BUF, zero beyond them, as a backing array. -/
def State.payload (s : State) (cap n : Nat) : Vector Byte cap :=
  Vector.ofFn fun i => if i.val < n then s.bufByte i.val else 0

/-- R98, R128: the first `n` bytes replaced by those at the start of BUF, the rest kept. -/
def State.overwrite {cap : Nat} (s : State) (d : Vector Byte cap) (n : Nat) : Vector Byte cap :=
  Vector.ofFn fun i => if i.val < n then s.bufByte i.val else d[i]

/-- R97, R127: the data view, the first `n` bytes of the backing array. -/
def view {cap : Nat} (d : Vector Byte cap) (n : Nat) : List Byte := d.toList.take n

/-- R99, R129: the first `n` bytes of the two arrays are equal. -/
def sameView {cap : Nat} (d e : Vector Byte cap) (n : Nat) : Bool := view d n == view e n

/-- R150, R151: the identifier of the image at the start of BUF. -/
def State.imageId (s : State) : Word := le32 (s.bufByte 0) (s.bufByte 1) (s.bufByte 2) (s.bufByte 3)

/-- R150, R151: the payload of the image at the start of BUF, `payload[i]` at BUF[6+i]. -/
def State.imageData (s : State) (cap : Nat) : Vector Byte cap := Vector.ofFn fun i => s.bufByte (6 + i.val)

/-- R150: the 14 bytes of a classic frame's image. -/
def ClassicFrame.image (c : ClassicFrame) : List Byte := bytesLe32 c.id ++ [c.flags, c.len] ++ c.data.toList

/-- R151: the 70 bytes of an FD frame's image. -/
def FdFrame.image (c : FdFrame) : List Byte := bytesLe32 c.id ++ [c.flags, c.dlc] ++ c.data.toList

/-! ### Reset -/

/-- R230, R231: the reset input was asserted: every piece of architectural state takes its reset value. The parameter, the
host's pending accesses and what it has read are not the block's and stay; BUF takes new arbitrary contents. -/
def State.assertReset (s : State) : State :=
  { State.reset with masks := s.masks, script := s.script, answers := s.answers, resets := s.resets + 1 }

end Sys2Proof.Machine
end

