-- ==== Sys2Proof/Machine/Bus.lean ====
section
/-! DEFINITION. The host's accesses to the window (spec/20_memory.md R50 to R57): the address map, the legal accesses, and the
next event of the host's sequence. -/

namespace Sys2Proof.Machine

/-- R52: the operand register at a word offset 0x20 + 4·i, i in 0..7. -/
def operandAt (off : BitVec 8) : Option (Fin 8) :=
  if 0x20 ≤ off.toNat ∧ off.toNat < 0x40 ∧ off.toNat % 4 = 0 then some (Fin.ofNat 8 ((off.toNat - 0x20) / 4)) else none

/-- R52: the index of BUF at an offset 0x80 + j, j in 0..127. -/
def bufferAt (off : BitVec 8) : Option Nat := if 0x80 ≤ off.toNat then some (off.toNat - 0x80) else none

/-- R52: the offsets of CMD and STATUS. -/
def cmdOffset : BitVec 8 := 0x00
def statusOffset : BitVec 8 := 0x04

/-- A read returned this to the host; no read has any other effect (R55). -/
def State.replied (s : State) (a : Answer) : State := { s with answers := s.answers ++ [a] }

/-- What the next event of the host's sequence comes to. -/
inductive Fetched where
  | done (t : State)
  | command (w : Word) (t : State)
  | illegal (e : HostEvent)

/-- R53: a 32-bit read: CMD reads 0 (R22), STATUS and the operand registers their values; anything else is illegal (R54). -/
def read32 (s : State) (off : BitVec 8) : Fetched :=
  if off = cmdOffset then .done (s.replied (.word 0))
  else if off = statusOffset then .done (s.replied (.word s.status))
  else match operandAt off with
    | some i => .done (s.replied (.word s.x[i]))
    | none => .illegal (.read32 off)

/-- R53: a 32-bit write: to CMD it is a command (R22), to STATUS it is ignored (R24), to an operand register it stores; anything
else is illegal (R54). -/
def write32 (s : State) (off : BitVec 8) (v : Word) : Fetched :=
  if off = cmdOffset then .command v s
  else if off = statusOffset then .done s
  else match operandAt off with
    | some i => .done (s.setX i v)
    | none => .illegal (.write32 off v)

/-- R53: an 8-bit read of a byte of BUF; anywhere else illegal (R54). -/
def read8 (s : State) (off : BitVec 8) : Fetched :=
  match bufferAt off with
  | some j => .done (s.replied (.byte (s.bufByte j)))
  | none => .illegal (.read8 off)

/-- R53: an 8-bit write of a byte of BUF; anywhere else illegal (R54). -/
def write8 (s : State) (off : BitVec 8) (v : Byte) : Fetched :=
  match bufferAt off with
  | some j => .done (s.setBufByte j v)
  | none => .illegal (.write8 off v)

/-- One event of the host (R53, R54, R230). No 16-bit access is legal. -/
def hostEvent (s : State) : HostEvent → Fetched
  | .read8 off => read8 s off
  | .read16 off => .illegal (.read16 off)
  | .read32 off => read32 s off
  | .write8 off v => write8 s off v
  | .write16 off v => .illegal (.write16 off v)
  | .write32 off v => write32 s off v
  | .reset => .done s.assertReset

/-- The next event, taken off the host's sequence; with none left nothing happens, since the block acts only inside an access (R15, R213). -/
def fetch (s : State) : Fetched :=
  match s.script with
  | [] => .done s
  | e :: rest => hostEvent { s with script := rest } e

/-- The host event that gives the block a command word (R22, R52). -/
def commandEvent (w : Word) : HostEvent := .write32 cmdOffset w

end Sys2Proof.Machine
end

