-- ==== Sys2Proof/Machine/Classic.lean ====
section
/-! DEFINITION. The meanings of the classic frame commands (spec/40_classic_frame.md R91 to R99). -/

namespace Sys2Proof.Machine

/-- R91: the slot CFNEW builds from a payload length already checked to be at most 8. -/
def newClassic (s : State) (mode : Mode) (n : Nat) : ClassicFrame :=
  { id := s.x[0] &&& idMask mode, flags := classicFlags s.masks mode, len := BitVec.ofNat 8 n,
    data := s.payload 8 n, v := true }

/-- R91: CFNEW constructs a classic frame; the length is compared on all 32 bits of X2. -/
def execCfnew (a : Slot) (mode : Mode) (s : State) : Result :=
  .next (if s.x[2].toNat > Config.capClassic then s.raise .frameTooLarge 0
    else (s.setCf a (newClassic s mode s.x[2].toNat)).ok)

/-- R93: CFID, the identifier masked by the stored mode flag. -/
def execCfid (a : Slot) (s : State) : Result := readClassic s a fun c => visibleId s.masks c.flags c.id

/-- R94: CFSTD, 1 when the mode flag is clear. -/
def execCfstd (a : Slot) (s : State) : Result := readClassic s a fun c => boolWord (!hasFlag c.flags s.masks.ext)

/-- R95: CFEXT, 1 when the mode flag is set. -/
def execCfext (a : Slot) (s : State) : Result := readClassic s a fun c => boolWord (hasFlag c.flags s.masks.ext)

/-- R96: CFLEN, the stored length. -/
def execCflen (a : Slot) (s : State) : Result := readClassic s a fun c => c.len.setWidth 32

/-- R97: CFDATA copies the view to the start of BUF and returns its length. -/
def execCfdata (a : Slot) (s : State) : Result :=
  withClassic s a 0 fun c => withClassicLength c fun n =>
    .next ((s.writeBuf 0 (view c.data n)).answer (BitVec.ofNat 32 n))

/-- R98: CFWR replaces the bytes of the view by those at the start of BUF. -/
def execCfwr (a : Slot) (s : State) : Result :=
  withClassic s a 0 fun c => withClassicLength c fun n =>
    .next (s.setCf a { c with data := s.overwrite c.data n }).ok

/-- R99: the parts of two classic frames compared before the payload: stored identifier, length, whole flags byte. -/
def sameClassicHeader (c d : ClassicFrame) : Bool := c.id == d.id && c.len == d.len && c.flags == d.flags

/-- R99: CFEQ, equality of two classic slots; `a` is checked for validity before `b`. -/
def execCfeq (a b : Slot) (s : State) : Result :=
  withClassic s a 0 fun c => withClassic s b 1 fun d =>
    if sameClassicHeader c d then withClassicLength c fun n => .next (s.answer (boolWord (sameView c.data d.data n)))
    else .next (s.answer 0)

end Sys2Proof.Machine
end

