-- ==== Sys2Proof/Machine/Dlc.lean ====
section
/-! DEFINITION. The meanings of DLCENC and DLCDEC (spec/41_dlc_map.md R112, R113). -/

namespace Sys2Proof.Machine

/-- R112: DLCENC, byte length to code; a length above 64 has none and raises. -/
def execDlcenc (s : State) : Result :=
  .next (match calcDlc s.x[0].toNat with
    | none => s.raise .frameTooLarge 0
    | some c => s.answer (BitVec.ofNat 32 c))

/-- R113: DLCDEC, code to byte length; a code above 15 has none and raises. -/
def execDlcdec (s : State) : Result :=
  .next (match dlcLen s.x[0].toNat with
    | none => s.raise .lengthCodeInvalid 0
    | some n => s.answer (BitVec.ofNat 32 n))

end Sys2Proof.Machine
end

