-- ==== Sys2Proof/Machine/Fd.lean ====
section
/-! DEFINITION. The meanings of the FD frame commands (spec/42_fd_frame.md R121 to R132). R133: no check relates the flags, the
mode and the length. -/

namespace Sys2Proof.Machine

/-- R121: the slot FFNEW builds from a payload length `n` whose code is `code`; `n` itself is not stored. -/
def newFd (s : State) (mode : Mode) (fd brs : Bool) (n code : Nat) : FdFrame :=
  { id := s.x[0] &&& idMask mode, flags := fdFlags s.masks mode fd brs, dlc := BitVec.ofNat 8 code,
    data := s.payload 64 n, v := true }

/-- R121: FFNEW constructs an FD frame. `calc_dlc` is defined exactly up to the capacity 64, so a length without a code is too large. -/
def execFfnew (a : Slot) (mode : Mode) (fd brs : Bool) (s : State) : Result :=
  .next (match calcDlc s.x[2].toNat with
    | none => s.raise .frameTooLarge 0
    | some code => (s.setFf a (newFd s mode fd brs s.x[2].toNat code)).ok)

/-- R123: FFID, the identifier masked by the stored mode flag. -/
def execFfid (a : Slot) (s : State) : Result := readFd s a fun c => visibleId s.masks c.flags c.id

/-- R124: FFSTD, 1 when the mode flag is clear. -/
def execFfstd (a : Slot) (s : State) : Result := readFd s a fun c => boolWord (!hasFlag c.flags s.masks.ext)

/-- R125: FFEXT, 1 when the mode flag is set. -/
def execFfext (a : Slot) (s : State) : Result := readFd s a fun c => boolWord (hasFlag c.flags s.masks.ext)

/-- R126: FFLEN, the byte length of the stored code. -/
def execFflen (a : Slot) (s : State) : Result :=
  withFd s a 0 fun c => withFdLength c fun n => .next (s.answer (BitVec.ofNat 32 n))

/-- R127: FFDATA copies the view, of the inverse-mapped length, to the start of BUF and returns that length. -/
def execFfdata (a : Slot) (s : State) : Result :=
  withFd s a 0 fun c => withFdLength c fun n =>
    .next ((s.writeBuf 0 (view c.data n)).answer (BitVec.ofNat 32 n))

/-- R128: FFWR replaces the bytes of the view, padding included, by those at the start of BUF. -/
def execFfwr (a : Slot) (s : State) : Result :=
  withFd s a 0 fun c => withFdLength c fun n =>
    .next (s.setFf a { c with data := s.overwrite c.data n }).ok

/-- R129: the parts of two FD frames compared before the payload: stored identifier, code, whole flags byte. -/
def sameFdHeader (c d : FdFrame) : Bool := c.id == d.id && c.dlc == d.dlc && c.flags == d.flags

/-- R129: FFEQ, equality of two FD slots; `a` is checked for validity before `b`. -/
def execFfeq (a b : Slot) (s : State) : Result :=
  withFd s a 0 fun c => withFd s b 1 fun d =>
    if sameFdHeader c d then withFdLength c fun n => .next (s.answer (boolWord (sameView c.data d.data n)))
    else .next (s.answer 0)

/-- R130: FFDLC, the stored code. -/
def execFfdlc (a : Slot) (s : State) : Result := readFd s a fun c => c.dlc.setWidth 32

/-- R131: FFFD, the stored fd flag. -/
def execFffd (a : Slot) (s : State) : Result := readFd s a fun c => boolWord (hasFlag c.flags s.masks.fd)

/-- R132: FFBRS, the stored brs flag. -/
def execFfbrs (a : Slot) (s : State) : Result := readFd s a fun c => boolWord (hasFlag c.flags s.masks.brs)

end Sys2Proof.Machine
end

