-- ==== Sys2Proof/Machine/Misc.lean ====
section
/-! DEFINITION. The meaning of NOP (spec/46_misc.md R190). -/

namespace Sys2Proof.Machine

/-- R190: NOP only reports success. -/
def execNop (s : State) : Result := .next s.ok

end Sys2Proof.Machine
end

