-- ==== Sys2Proof/Machine/Timing.lean ====
section
/-! DEFINITION. The meanings of the bit-timing commands (spec/44_classic_timing.md R167, R169; spec/45_fd_timing.md R177, R179). -/

namespace Sys2Proof.Machine

/-- The quadruple in X[i], X[i+1], X[i+2], X[i+3]: the nominal or classic one at i = 0, the data one at i = 4 (R166, R176). -/
def lowQuad (s : State) : Quad := { prescaler := s.x[0], sjw := s.x[1], tseg1 := s.x[2], tseg2 := s.x[3] }
def highQuad (s : State) : Quad := { prescaler := s.x[4], sjw := s.x[5], tseg1 := s.x[6], tseg2 := s.x[7] }

/-- R167: BTNEW checks the four fields in order and stores them, or reports the first one out of range. -/
def execBtnew (s : State) : Result :=
  .next (match firstOutOfBounds Config.classicBounds (lowQuad s).fields with
    | some k => s.raise .timingOutOfBounds (BitVec.ofNat 4 k)
    | none => State.ok { s with bt := { q := lowQuad s, v := true } })

/-- R169: BTENC packs BT into X0, zero-extended. -/
def execBtenc (s : State) : Result :=
  if s.bt.v then
    if s.bt.q.classicOk then .next (s.answer ((packTiming s.bt.q).setWidth 32)) else .fault .timingRange
  else .next (s.raise .invalidSource 0)

/-- R177, R178: FBTNEW checks the eight fields in register order and stores both phases, or reports the first one out of range. -/
def execFbtnew (s : State) : Result :=
  .next (match firstOutOfBounds fdBounds ((lowQuad s).fields ++ (highQuad s).fields) with
    | some k => s.raise .timingOutOfBounds (BitVec.ofNat 4 k)
    | none => State.ok { s with fbt := { nom := lowQuad s, data := highQuad s, v := true } })

/-- R179: FBTENC writes the descriptor and its NUL at the start of BUF and returns the length without the NUL. -/
def execFbtenc (s : State) : Result :=
  if s.fbt.v then
    if s.fbt.inRange then
      .next ((s.writeBuf 0 (descriptor s.fbt ++ [0])).answer (BitVec.ofNat 32 (descriptor s.fbt).length))
    else .fault .fdTimingRange
  else .next (s.raise .invalidSource 0)

end Sys2Proof.Machine
end

