-- ==== Sys2Proof/Machine/Wire.lean ====
section
/-! DEFINITION. The meanings of the image loads and stores (spec/43_wire_image.md R150 to R157): fields are copied one to one,
nothing is masked or filtered (R152). -/

namespace Sys2Proof.Machine

/-- R153: the slot that the image at the start of BUF holds. -/
def loadedClassic (s : State) : ClassicFrame :=
  { id := s.imageId, flags := s.bufByte 4, len := s.bufByte 5, data := s.imageData 8, v := true }

/-- R153: CFLD loads a classic frame, refusing a length byte above 8. -/
def execCfld (a : Slot) (s : State) : Result :=
  .next (if (s.bufByte 5).toNat > Config.capClassic then s.raise .lengthCodeInvalid 0
    else (s.setCf a (loadedClassic s)).ok)

/-- R154: CFST stores a classic frame's 14 bytes at the start of BUF. -/
def execCfst (a : Slot) (s : State) : Result := withClassic s a 0 fun c => .next (s.writeBuf 0 c.image).ok

/-- R156: the slot that the image at the start of BUF holds. -/
def loadedFd (s : State) : FdFrame :=
  { id := s.imageId, flags := s.bufByte 4, dlc := s.bufByte 5, data := s.imageData 64, v := true }

/-- R156: FFLD loads an FD frame, refusing a dlc byte above 15. -/
def execFfld (a : Slot) (s : State) : Result :=
  .next (if (s.bufByte 5).toNat > 15 then s.raise .lengthCodeInvalid 0 else (s.setFf a (loadedFd s)).ok)

/-- R157: FFST stores an FD frame's 70 bytes at the start of BUF. -/
def execFfst (a : Slot) (s : State) : Result := withFd s a 0 fun c => .next (s.writeBuf 0 c.image).ok

end Sys2Proof.Machine
end

