-- ==== Sys2Proof/Machine/Dispatch.lean ====
section
/-! DEFINITION. One arm per command (spec/30_encoding.md R73), each a call of its meaning. -/

namespace Sys2Proof.Machine

def exec (i : Instr) (s : State) : Host.Outcome State Fault Refusal :=
  match i with
  | .nop => Sys2Proof.Machine.execNop s
  | .cfnew a mode => Sys2Proof.Machine.execCfnew a mode s
  | .cfid a => Sys2Proof.Machine.execCfid a s
  | .cfstd a => Sys2Proof.Machine.execCfstd a s
  | .cfext a => Sys2Proof.Machine.execCfext a s
  | .cflen a => Sys2Proof.Machine.execCflen a s
  | .cfdata a => Sys2Proof.Machine.execCfdata a s
  | .cfwr a => Sys2Proof.Machine.execCfwr a s
  | .cfeq a b => Sys2Proof.Machine.execCfeq a b s
  | .cfld a => Sys2Proof.Machine.execCfld a s
  | .cfst a => Sys2Proof.Machine.execCfst a s
  | .ffnew a mode fd brs => Sys2Proof.Machine.execFfnew a mode fd brs s
  | .ffid a => Sys2Proof.Machine.execFfid a s
  | .ffstd a => Sys2Proof.Machine.execFfstd a s
  | .ffext a => Sys2Proof.Machine.execFfext a s
  | .fflen a => Sys2Proof.Machine.execFflen a s
  | .ffdata a => Sys2Proof.Machine.execFfdata a s
  | .ffwr a => Sys2Proof.Machine.execFfwr a s
  | .ffeq a b => Sys2Proof.Machine.execFfeq a b s
  | .ffld a => Sys2Proof.Machine.execFfld a s
  | .ffst a => Sys2Proof.Machine.execFfst a s
  | .ffdlc a => Sys2Proof.Machine.execFfdlc a s
  | .fffd a => Sys2Proof.Machine.execFffd a s
  | .ffbrs a => Sys2Proof.Machine.execFfbrs a s
  | .dlcenc => Sys2Proof.Machine.execDlcenc s
  | .dlcdec => Sys2Proof.Machine.execDlcdec s
  | .btnew => Sys2Proof.Machine.execBtnew s
  | .btenc => Sys2Proof.Machine.execBtenc s
  | .fbtnew => Sys2Proof.Machine.execFbtnew s
  | .fbtenc => Sys2Proof.Machine.execFbtenc s

end Sys2Proof.Machine
end

