-- ==== Sys2Proof/Machine/Step.lean ====
section
/-! DEFINITION. One step: the next event of the host's sequence (spec/00_scope.md R15), a CMD write being decoded and executed within
it as one atomic transition (spec/20_memory.md R60). There is no program counter (spec/10_state.md R23). -/

namespace Sys2Proof.Machine

/-- One event of the host. A word that is no command raises IllegalCommand (R75, R206); an access outside the legal set is refused (R54, R216). -/
def step (s : State) : Host.Outcome State Fault Refusal :=
  match fetch s with
  | .done t => .next t
  | .illegal e => .refused (.busError e)
  | .command w t =>
    match decode w with
    | .ok i => exec i t
    | .error _ => .next t.illegalCommand

/-- The host's next event made the write to CMD of the opcode-table instruction whose bits are `w` (R22): commands reach the block
only so, since it fetches nothing (R63). See assumption 3. -/
def State.withFetchWord (s : State) (nbits w : Nat) : State :=
  { s with script := commandEvent (BitVec.ofNat 32 (w % 2 ^ nbits)) :: s.script }

end Sys2Proof.Machine
end

