-- ==== Sys2Proof/Safety.lean ====
section
/-! DEFINITION. What claims are stated with: the invariants of spec/10_state.md R29, R31, R32, R33, what STATUS can hold
(spec/60_exceptions.md R200, R202), what each command writes (spec/30_encoding.md R76, spec/20_memory.md R58), the legal
accesses (R53), and the two units (spec/00_scope.md R2). Each is written out from the rule, not from the meanings. -/

namespace Sys2Proof.Machine

/-- R29: a valid classic slot has `len <= 8`. -/
def ClassicFrame.Ok (c : ClassicFrame) : Prop := c.v = true → c.len.toNat ≤ 8

/-- R31: a valid FD slot has `dlc <= 15`. -/
def FdFrame.Ok (c : FdFrame) : Prop := c.v = true → c.dlc.toNat ≤ 15

/-- The value lies in lo..hi, inclusive. -/
def within (lo hi : Nat) (w : Word) : Prop := lo ≤ w.toNat ∧ w.toNat ≤ hi

/-- R166: the classic bounds. -/
def Quad.InClassic (q : Quad) : Prop :=
  within 1 64 q.prescaler ∧ within 1 4 q.sjw ∧ within 1 16 q.tseg1 ∧ within 1 8 q.tseg2

/-- R176: the bounds of the nominal phase. -/
def Quad.InNominal (q : Quad) : Prop :=
  within 1 1024 q.prescaler ∧ within 1 128 q.sjw ∧ within 1 256 q.tseg1 ∧ within 1 128 q.tseg2

/-- R176: the bounds of the data phase. -/
def Quad.InData (q : Quad) : Prop :=
  within 1 1024 q.prescaler ∧ within 1 16 q.sjw ∧ within 1 32 q.tseg1 ∧ within 1 16 q.tseg2

/-- R32: a valid BT lies inside the classic bounds. -/
def ClassicTiming.Ok (t : ClassicTiming) : Prop := t.v = true → t.q.InClassic

/-- R33: a valid FBT lies inside the bounds of its two phases. -/
def FdTiming.Ok (t : FdTiming) : Prop := t.v = true → t.nom.InNominal ∧ t.data.InData

/-- R200, R202: the pairs of `err` and `einfo` the block can show. -/
def statusPair (err einfo : BitVec 4) : Prop :=
  ((err = 0 ∨ err = 1 ∨ err = 8 ∨ err = 10) ∧ einfo = 0) ∨ (err = 2 ∧ einfo.toNat ≤ 7) ∨ (err = 9 ∧ einfo.toNat ≤ 1)

/-- The invariant of the machine: BUF keeps its canonical form, the masks satisfy R8, every valid register satisfies its
rule, STATUS shows a pair of R202. -/
structure State.Inv (s : State) : Prop where
  buf     : Mem.wf s.buf = true
  masks   : s.masks.wellFormed = true
  classic : ∀ a : Slot, s.cf[a].Ok
  fd      : ∀ a : Slot, s.ff[a].Ok
  bt      : s.bt.Ok
  fbt     : s.fbt.Ok
  status  : statusPair s.err s.einfo

/-- R76: the commands that write X0 on success. -/
def writesX0 : Instr → Bool
  | .cfid _ | .cfstd _ | .cfext _ | .cflen _ | .cfdata _ | .cfeq _ _ => true
  | .ffid _ | .ffstd _ | .ffext _ | .fflen _ | .ffdata _ | .ffeq _ _ | .ffdlc _ | .fffd _ | .ffbrs _ => true
  | .dlcenc | .dlcdec | .btenc | .fbtenc => true
  | .nop | .cfnew _ _ | .cfwr _ | .cfld _ | .cfst _ | .ffnew _ _ _ _ | .ffwr _ | .ffld _ | .ffst _ | .btnew | .fbtnew => false

/-- R76: the commands that write the classic slot CF[b]. -/
def writesCf (b : Slot) : Instr → Bool
  | .cfnew a _ | .cfwr a | .cfld a => a == b
  | _ => false

/-- R76: the commands that write the FD slot FF[b]. -/
def writesFf (b : Slot) : Instr → Bool
  | .ffnew a _ _ _ | .ffwr a | .ffld a => a == b
  | _ => false

/-- R58: how many bytes at the start of BUF a command writes when it succeeds. -/
def bufWritten (s : State) : Instr → Nat
  | .cfdata a => s.cf[a].len.toNat
  | .ffdata a => (dlcLen s.ff[a].dlc.toNat).getD 0
  | .cfst _ => 14
  | .ffst _ => 70
  | .fbtenc => (descriptor s.fbt).length + 1
  | _ => 0

/-- R53: the legal accesses, and the reset input (R230), which is no access. -/
def legalEvent (e : HostEvent) : Prop :=
  match e with
  | .read8 off | .write8 off _ => 0x80 ≤ off.toNat
  | .read32 off | .write32 off _ => off.toNat = 0x00 ∨ off.toNat = 0x04 ∨ ∃ i : Fin 8, off.toNat = 0x20 + 4 * i.val
  | .read16 _ | .write16 _ _ => False
  | .reset => True

/-- R2: the commands of the Bit-Timing Unit (files 44 and 45). -/
def timingCommand : Instr → Bool
  | .btnew | .btenc | .fbtnew | .fbtenc => true
  | _ => false

/-- R2: the commands of the Frame Codec Unit; NOP belongs to neither unit. -/
def frameCommand (i : Instr) : Bool := !timingCommand i && i != .nop

/-- R207: the command reads CF[a], FF[a], BT or FBT, whichever it names first, and that register is not valid. -/
def sourceInvalid (s : State) : Instr → Prop
  | .cfid a | .cfstd a | .cfext a | .cflen a | .cfdata a | .cfwr a | .cfeq a _ | .cfst a => s.cf[a].v = false
  | .ffid a | .ffstd a | .ffext a | .fflen a | .ffdata a | .ffwr a | .ffeq a _ | .ffst a => s.ff[a].v = false
  | .ffdlc a | .fffd a | .ffbrs a => s.ff[a].v = false
  | .btenc => s.bt.v = false
  | .fbtenc => s.fbt.v = false
  | _ => False

/-- R200's column "Raised by", for the errors of operations and of sources. -/
def canRaise : CommandError → Instr → Bool
  | .frameTooLarge, i => match i with | .cfnew _ _ | .ffnew _ _ _ _ | .dlcenc => true | _ => false
  | .timingOutOfBounds, i => match i with | .btnew | .fbtnew => true | _ => false
  | .lengthCodeInvalid, i => match i with | .cfld _ | .ffld _ | .dlcdec => true | _ => false
  | .invalidSource, i => match i with
    | .cfid _ | .cfstd _ | .cfext _ | .cflen _ | .cfdata _ | .cfwr _ | .cfeq _ _ | .cfst _ => true
    | .ffid _ | .ffstd _ | .ffext _ | .fflen _ | .ffdata _ | .ffwr _ | .ffeq _ _ | .ffst _ => true
    | .ffdlc _ | .fffd _ | .ffbrs _ | .btenc | .fbtenc => true
    | _ => false
  | .illegalCommand, _ => false

/-- spec/opcode_table.json, R72, R73: the `match` and the `mask` of each command's row. -/
def tableRow : Instr → Word × Word
  | .nop => (0x00000000, 0xFFFFFFFF)
  | .cfnew _ _ => (0x00000010, 0xFFFFFAFF)
  | .cfid _ => (0x00000011, 0xFFFFFEFF)
  | .cfstd _ => (0x00000012, 0xFFFFFEFF)
  | .cfext _ => (0x00000013, 0xFFFFFEFF)
  | .cflen _ => (0x00000014, 0xFFFFFEFF)
  | .cfdata _ => (0x00000015, 0xFFFFFEFF)
  | .cfwr _ => (0x00000016, 0xFFFFFEFF)
  | .cfeq _ _ => (0x00000017, 0xFFFFFCFF)
  | .cfld _ => (0x00000018, 0xFFFFFEFF)
  | .cfst _ => (0x00000019, 0xFFFFFEFF)
  | .ffnew _ _ _ _ => (0x00000020, 0xFFFFE2FF)
  | .ffid _ => (0x00000021, 0xFFFFFEFF)
  | .ffstd _ => (0x00000022, 0xFFFFFEFF)
  | .ffext _ => (0x00000023, 0xFFFFFEFF)
  | .fflen _ => (0x00000024, 0xFFFFFEFF)
  | .ffdata _ => (0x00000025, 0xFFFFFEFF)
  | .ffwr _ => (0x00000026, 0xFFFFFEFF)
  | .ffeq _ _ => (0x00000027, 0xFFFFFCFF)
  | .ffld _ => (0x00000028, 0xFFFFFEFF)
  | .ffst _ => (0x00000029, 0xFFFFFEFF)
  | .ffdlc _ => (0x0000002A, 0xFFFFFEFF)
  | .fffd _ => (0x0000002B, 0xFFFFFEFF)
  | .ffbrs _ => (0x0000002C, 0xFFFFFEFF)
  | .dlcenc => (0x00000030, 0xFFFFFFFF)
  | .dlcdec => (0x00000031, 0xFFFFFFFF)
  | .btnew => (0x00000040, 0xFFFFFFFF)
  | .btenc => (0x00000041, 0xFFFFFFFF)
  | .fbtnew => (0x00000048, 0xFFFFFFFF)
  | .fbtenc => (0x00000049, 0xFFFFFFFF)

/-- R78: the words of format A, `op | a<<8`, and of format AB, `op | a<<8 | b<<9`. -/
def slotWord (op : Word) (a : Slot) : Word := op ||| (BitVec.ofNat 32 a.val <<< 8)
def pairWord (op : Word) (a b : Slot) : Word := slotWord op a ||| (BitVec.ofNat 32 b.val <<< 9)

/-- R78: an argument of a constructor's word, 1 at bit `k` when it is set. -/
def argBit (c : Prop) [Decidable c] (k : Nat) : Word := if c then 1 <<< k else 0

end Sys2Proof.Machine
end

