-- ==== Sys2Proof/Certificates/Slice0/Obligations.lean ====
section
/-! DEFINITION. The statements about CFTE, each from the rule of spec/ its docstring names. -/

open Sys2Proof Sys2Proof.Machine

/-! ### Encoding (30_encoding.md) -/

/-- Words the spec writes out (R78's examples, one word of every family from V4) decode to the command they stand for, and words
V4 lists as illegal are refused (R75). The spec refuses all illegal words alike: the three names of the refusal are the model's
own labels, assumption 9 (DESIGN CHOICE). -/
def Obligations.SpecWordsDecode : Prop :=
  decode 0x00000510 = .ok (.cfnew 1 .extended) ∧ decode 0x00000217 = .ok (.cfeq 0 1) ∧
  decode 0x00001820 = .ok (.ffnew 0 .standard true true) ∧ decode 0x00000D20 = .ok (.ffnew 1 .extended true false) ∧
  decode 0x00000049 = .ok .fbtenc ∧ decode 0x00000111 = .ok (.cfid 1) ∧ decode 0x0000012C = .ok (.ffbrs 1) ∧
  decode 0x00000118 = .ok (.cfld 1) ∧ decode 0x00000031 = .ok .dlcdec ∧ decode 0x00000041 = .ok .btenc ∧
  decode 0x00000000 = .ok .nop ∧
  decode 0x0000001A = .error .unassignedOpcode ∧ decode 0x00000100 = .error .unusedField ∧
  decode 0x00001E20 = .error .unusedField ∧ decode 0x80000000 = .error .reservedBit

/-- R70, R73, R78: decoding a command's word gives the command back, with every field at every value, and the command is well
formed (R71). -/
def Obligations.DecodeOfEncode : Prop := ∀ i : Instr, i.wellFormed = true ∧ decode (encode i) = .ok i

/-- R74: a word that decodes to a command is the command's own word, so no bit of it is dropped and no two words share a command. -/
def Obligations.EncodeOfDecode : Prop := ∀ (w : Word) (i : Instr), decode w = .ok i → encode i = w

/-- R71, R72: a word encodes a command of a given row of the opcode table if and only if `w & mask == match` for that row. -/
def Obligations.CommandIffMaskMatch : Prop :=
  ∀ (w : Word) (j : Instr), (∃ i, decode w = .ok i ∧ tableRow i = tableRow j) ↔ w &&& (tableRow j).2 = (tableRow j).1

/-- R206: a word written to CMD that fails decoding raises IllegalCommand (code 8, einfo 0), and nothing is executed. -/
def Obligations.UndecodableWordRaises : Prop :=
  ∀ (s : State) (w : Word) (r : Reject) (rest : List HostEvent),
    s.script = commandEvent w :: rest → decode w = .error r →
      step s = .next { s with script := rest, err := 8, einfo := 0 }

/-! ### The host's accesses (20_memory.md) and reset -/

/-- A step runs the decoded command: when the host's next access writes to CMD a word that decodes to a well-formed `i`, the
step is exec of `i` on the state without that access (R22). -/
def Obligations.StepRunsDecodedCommand : Prop :=
  ∀ (s : State) (w : Word) (i : Instr) (rest : List HostEvent),
    s.script = commandEvent w :: rest → decode w = .ok i → i.wellFormed = true →
      step s = exec i { s with script := rest }

/-- R22, R24, R52, R55: a 32-bit read at 0x00 answers 0, at 0x04 STATUS, at 0x20 + 4·i the operand register Xi, and changes
nothing. -/
def Obligations.RegisterReadsAnswer : Prop :=
  ∀ (s : State) (rest : List HostEvent) (off : BitVec 8) (w : Word), s.script = .read32 off :: rest →
    (off.toNat = 0x00 ∧ w = 0 ∨ off.toNat = 0x04 ∧ w = s.status ∨ ∃ i : Fin 8, off.toNat = 0x20 + 4 * i.val ∧ w = s.x[i]) →
      step s = .next { s with script := rest, answers := s.answers ++ [.word w] }

/-- R20, R24, R55: a 32-bit write at 0x20 + 4·i stores the value in Xi and does nothing else; one at 0x04 is ignored. -/
def Obligations.RegisterWritesStore : Prop :=
  (∀ (s : State) (rest : List HostEvent) (off : BitVec 8) (v : Word) (i : Fin 8),
    s.script = .write32 off v :: rest → off.toNat = 0x20 + 4 * i.val →
      step s = .next { s with script := rest, x := s.x.set i.val v i.isLt }) ∧
  (∀ (s : State) (rest : List HostEvent) (off : BitVec 8) (v : Word),
    s.script = .write32 off v :: rest → off.toNat = 0x04 → step s = .next { s with script := rest })

/-- R27, R52, R55, R61: an 8-bit read at 0x80 + j answers BUF[j]; an 8-bit write there stores the byte, every other byte reads as
before and nothing else changes. -/
def Obligations.BufferReadsAndWrites : Prop :=
  (∀ (s : State) (rest : List HostEvent) (off : BitVec 8) (j : Nat),
    s.script = .read8 off :: rest → off.toNat = 0x80 + j →
      step s = .next { s with script := rest, answers := s.answers ++ [.byte (s.bufByte j)] }) ∧
  (∀ (s : State) (rest : List HostEvent) (off : BitVec 8) (j : Nat) (v : Byte),
    s.script = .write8 off v :: rest → off.toNat = 0x80 + j →
      ∃ t, step s = .next t ∧ t = { s with script := rest, buf := t.buf } ∧
        t.bufByte j = v ∧ ∀ k, k ≠ j → t.bufByte k = s.bufByte k)

/-- R24: the fields of STATUS as the host reads it. -/
def Obligations.StatusWordLayout : Prop :=
  ∀ s : State, s.status.extractLsb' 0 4 = s.err ∧ s.status.extractLsb' 4 4 = s.einfo ∧
    s.status.getLsbD 8 = s.cf[0].v ∧ s.status.getLsbD 9 = s.cf[1].v ∧ s.status.getLsbD 10 = s.ff[0].v ∧
    s.status.getLsbD 11 = s.ff[1].v ∧ s.status.getLsbD 12 = s.bt.v ∧ s.status.getLsbD 13 = s.fbt.v ∧
    s.status.extractLsb' 14 18 = 0

/-- R53, R54: a host access is refused, as a bus error, exactly when it is not one of the legal accesses. -/
def Obligations.IllegalAccessRefusedExactly : Prop :=
  ∀ (s : State) (e : HostEvent) (rest : List HostEvent), s.script = e :: rest →
    ((∃ r, step s = .refused r) ↔ ¬ legalEvent e) ∧ (¬ legalEvent e → step s = .refused (.busError e))

/-- R230, R231: the reset input gives X0..X7 = 0, STATUS = 0 and no valid bit, and BUF fresh arbitrary contents. That these are the
free bytes of the next reset count is the model's form of "any value": assumption 2. That the masks, the pending accesses and the
record of answers stay (the last clause) is the model's choice about its own fields: assumption 7 (DEDUCED; the fields: 1 and 3). -/
def Obligations.ResetInputResets : Prop :=
  ∀ (s : State) (rest : List HostEvent), s.script = .reset :: rest →
    ∃ t, step s = .next t ∧ (∀ i : Fin 8, t.x[i] = 0) ∧ t.err = 0 ∧ t.einfo = 0 ∧ t.status = 0 ∧
      (∀ a : Slot, t.cf[a].v = false ∧ t.ff[a].v = false) ∧ t.bt.v = false ∧ t.fbt.v = false ∧
      (∀ j, t.bufByte j = Config.bufInit (s.resets + 1) j) ∧
      t.masks = s.masks ∧ t.script = rest ∧ t.answers = s.answers

/-- R36: the values the spec gives the state after reset. -/
def Obligations.ResetStateValues : Prop :=
  (∀ i : Fin 8, State.reset.x[i] = 0) ∧ State.reset.err = 0 ∧ State.reset.einfo = 0 ∧ State.reset.status = 0 ∧
    (∀ a : Slot, State.reset.cf[a].v = false ∧ State.reset.ff[a].v = false) ∧
    State.reset.bt.v = false ∧ State.reset.fbt.v = false

/-! ### The whole machine -/

/-- The invariant holds at reset. -/
def Obligations.ResetMeetsInvariant : Prop := State.reset.Inv

/-- R29, R31, R32, R33, R202: every step keeps the invariant, from every state that meets it. -/
def Obligations.StepKeepsInvariant : Prop := ∀ s t : State, s.Inv → step s = .next t → t.Inv

/-- R15, R54, R75: from every state that meets the invariant, a step whose host access is legal answers a next state: nothing
but an illegal access stops the machine. -/
def Obligations.LegalStepsNeverStop : Prop :=
  ∀ s : State, s.Inv → (∀ e rest, s.script = e :: rest → legalEvent e) → ∃ t, step s = .next t

/-- R203: a command that ends with an error recorded the code of an error it can raise (R200), and changed `err` and `einfo` and
nothing else. -/
def Obligations.FailedCommandChangesOnlyStatus : Prop :=
  ∀ (i : Instr) (s t : State), exec i s = .next t → t.err ≠ 0 →
    t = { s with err := t.err, einfo := t.einfo } ∧ ∃ e : CommandError, canRaise e i = true ∧ t.err = e.code

/-- R200, R202, R204: after a command STATUS shows success, or an error that R200 lists for that command with R202's einfo. -/
def Obligations.StatusDescribesTheCommand : Prop :=
  ∀ (i : Instr) (s t : State), exec i s = .next t →
    (t.err = 0 ∧ t.einfo = 0) ∨
    (canRaise .frameTooLarge i = true ∧ t.err = 1 ∧ t.einfo = 0) ∨
    (canRaise .timingOutOfBounds i = true ∧ t.err = 2 ∧ t.einfo.toNat ≤ 7 ∧ (i = .btnew → t.einfo.toNat ≤ 3)) ∨
    (canRaise .invalidSource i = true ∧ t.err = 9 ∧
      (t.einfo = 0 ∨ t.einfo = 1 ∧ ∃ a b, i = .cfeq a b ∨ i = .ffeq a b)) ∨
    (canRaise .lengthCodeInvalid i = true ∧ t.err = 10 ∧ t.einfo = 0)

/-- R207, R210: a command whose first source register is not valid raises InvalidSource(0), and CFEQ and FFEQ raise InvalidSource(1)
when only the second is not. -/
def Obligations.InvalidSourceRaises : Prop :=
  (∀ (i : Instr) (s : State), sourceInvalid s i → exec i s = .next { s with err := 9, einfo := 0 }) ∧
  (∀ (a b : Slot) (s : State), s.cf[a].v = true → s.cf[b].v = false →
    exec (.cfeq a b) s = .next { s with err := 9, einfo := 1 }) ∧
  (∀ (a b : Slot) (s : State), s.ff[a].v = true → s.ff[b].v = false →
    exec (.ffeq a b) s = .next { s with err := 9, einfo := 1 })

/-- R20, R76: no command writes X1..X7, and a command that R76 gives no result leaves X0 alone too. -/
def Obligations.OperandRegisterFrame : Prop :=
  ∀ (i : Instr) (s t : State), exec i s = .next t →
    (∀ k : Fin 8, k ≠ 0 → t.x[k] = s.x[k]) ∧ (writesX0 i = false → t.x = s.x)

/-- R58: every byte of BUF that the command's row does not list as written reads as before. -/
def Obligations.BufferFrame : Prop :=
  ∀ (i : Instr) (s t : State), exec i s = .next t → ∀ j, bufWritten s i ≤ j → t.bufByte j = s.bufByte j

/-- R76: a slot that is not the command's destination is unchanged; CFWR and FFWR change their slot's payload alone (R98, R128). -/
def Obligations.SlotFrame : Prop :=
  ∀ (i : Instr) (s t : State), exec i s = .next t →
    (∀ b : Slot, writesCf b i = false → t.cf[b] = s.cf[b]) ∧ (∀ b : Slot, writesFf b i = false → t.ff[b] = s.ff[b]) ∧
    (∀ a, i = .cfwr a → t.cf[a] = { s.cf[a] with data := t.cf[a].data }) ∧
    (∀ a, i = .ffwr a → t.ff[a] = { s.ff[a] with data := t.ff[a].data })

/-- R32, R33: only BTNEW writes BT, and only FBTNEW writes FBT. R35: no command changes what is not the block's state: the masks,
the host's sequence, what the host has read, the count of resets (the model's own fields, assumptions 1, 2, 3). -/
def Obligations.TimingAndHostSideFrame : Prop :=
  ∀ (i : Instr) (s t : State), exec i s = .next t →
    (i ≠ .btnew → t.bt = s.bt) ∧ (i ≠ .fbtnew → t.fbt = s.fbt) ∧
    t.masks = s.masks ∧ t.script = s.script ∧ t.answers = s.answers ∧ t.resets = s.resets

/-- R34: nothing but the reset input clears a valid bit. -/
def Obligations.ValidBitsOnlyClearedByReset : Prop :=
  ∀ s t : State, (∀ rest, s.script ≠ .reset :: rest) → step s = .next t →
    (∀ a : Slot, (s.cf[a].v = true → t.cf[a].v = true) ∧ (s.ff[a].v = true → t.ff[a].v = true)) ∧
    (s.bt.v = true → t.bt.v = true) ∧ (s.fbt.v = true → t.fbt.v = true)

/-- R2: no command of one unit reads or writes the state of the other: it leaves it unchanged, and its effect is the same whatever
that state is. -/
def Obligations.UnitsAreIndependent : Prop :=
  ∀ (i : Instr) (s t : State), exec i s = .next t →
    (frameCommand i = true → t.bt = s.bt ∧ t.fbt = s.fbt ∧
      ∀ b f, exec i { s with bt := b, fbt := f } = .next { t with bt := b, fbt := f }) ∧
    (timingCommand i = true → t.cf = s.cf ∧ t.ff = s.ff ∧
      ∀ c f, exec i { s with cf := c, ff := f } = .next { t with cf := c, ff := f })

/-! ### NOP (46_misc.md) -/

/-- R190: NOP clears `err` and `einfo` and changes nothing else. -/
def Obligations.NopOnlyReportsSuccess : Prop :=
  encode .nop = 0x00 ∧ ∀ s : State, exec .nop s = .next { s with err := 0, einfo := 0 }

/-! ### Classic frames (40_classic_frame.md) -/

/-- R91: CFNEW builds the frame when X2 <= 8 and raises FrameTooLarge when X2, all 32 bits of it, is larger. -/
def Obligations.CfnewBuildsFrame : Prop :=
  ∀ (s : State) (a : Slot) (mode : Mode),
    encode (.cfnew a mode) = slotWord 0x10 a ||| argBit (mode = .extended) 10 ∧
    (s.x[2].toNat ≤ 8 → ∃ c : ClassicFrame,
      exec (.cfnew a mode) s = .next { s with cf := s.cf.set a.val c a.isLt, err := 0, einfo := 0 } ∧
      c.id = s.x[0] &&& (if mode = .extended then 0x1FFFFFFF else 0x000007FF) ∧
      c.flags = (if mode = .extended then s.masks.ext else 0x00) ∧
      c.len.toNat = s.x[2].toNat ∧ c.v = true ∧
      ∀ k (h : k < 8), c.data[k] = if k < s.x[2].toNat then s.bufByte k else 0x00) ∧
    (8 < s.x[2].toNat → exec (.cfnew a mode) s = .next { s with err := 1, einfo := 0 })

/-- R93: CFID returns the stored identifier masked by the stored mode flag. -/
def Obligations.CfidMasksByStoredMode : Prop :=
  ∀ (s : State) (a : Slot),
    encode (.cfid a) = slotWord 0x11 a ∧
    (s.cf[a].v = true → exec (.cfid a) s = .next { s with
      x := s.x.set 0 (s.cf[a].id &&& (if s.cf[a].flags &&& s.masks.ext ≠ 0 then 0x1FFFFFFF else 0x000007FF)),
      err := 0, einfo := 0 }) ∧
    (s.cf[a].v = false → exec (.cfid a) s = .next { s with err := 9, einfo := 0 })

/-- R94, R95: CFSTD returns 1 exactly when the mode flag is clear, CFEXT exactly when it is set. -/
def Obligations.CfstdCfextReadModeFlag : Prop :=
  ∀ (s : State) (a : Slot),
    encode (.cfstd a) = slotWord 0x12 a ∧ encode (.cfext a) = slotWord 0x13 a ∧
    (s.cf[a].v = true →
      exec (.cfstd a) s = .next { s with
        x := s.x.set 0 (if s.cf[a].flags &&& s.masks.ext = 0 then 1 else 0), err := 0, einfo := 0 } ∧
      exec (.cfext a) s = .next { s with
        x := s.x.set 0 (if s.cf[a].flags &&& s.masks.ext = 0 then 0 else 1), err := 0, einfo := 0 }) ∧
    (s.cf[a].v = false →
      exec (.cfstd a) s = .next { s with err := 9, einfo := 0 } ∧
      exec (.cfext a) s = .next { s with err := 9, einfo := 0 })

/-- R96: CFLEN returns the stored length. -/
def Obligations.CflenReturnsLength : Prop :=
  ∀ (s : State) (a : Slot),
    encode (.cflen a) = slotWord 0x14 a ∧
    (s.cf[a].v = true → exec (.cflen a) s = .next { s with
      x := s.x.set 0 (s.cf[a].len.setWidth 32), err := 0, einfo := 0 }) ∧
    (s.cf[a].v = false → exec (.cflen a) s = .next { s with err := 9, einfo := 0 })

/-- R97: CFDATA copies the first `len` payload bytes to the start of BUF, returns `len`, and leaves the rest of BUF. R29 bounds `len`. -/
def Obligations.CfdataCopiesView : Prop :=
  ∀ (s : State) (a : Slot),
    encode (.cfdata a) = slotWord 0x15 a ∧
    (s.cf[a].v = true → s.cf[a].len.toNat ≤ 8 → ∃ t, exec (.cfdata a) s = .next t ∧
      t = { s with x := s.x.set 0 (s.cf[a].len.setWidth 32), buf := t.buf, err := 0, einfo := 0 } ∧
      (∀ k (h : k < 8), k < s.cf[a].len.toNat → t.bufByte k = s.cf[a].data[k]) ∧
      ∀ j, s.cf[a].len.toNat ≤ j → t.bufByte j = s.bufByte j) ∧
    (s.cf[a].v = false → exec (.cfdata a) s = .next { s with err := 9, einfo := 0 })

/-- R98: CFWR replaces the bytes of the view by those at the start of BUF and changes nothing else of the slot. -/
def Obligations.CfwrReplacesView : Prop :=
  ∀ (s : State) (a : Slot),
    encode (.cfwr a) = slotWord 0x16 a ∧
    (s.cf[a].v = true → s.cf[a].len.toNat ≤ 8 → ∃ d : Vector Byte 8,
      exec (.cfwr a) s = .next { s with cf := s.cf.set a.val { s.cf[a] with data := d } a.isLt, err := 0, einfo := 0 } ∧
      ∀ k (h : k < 8), d[k] = if k < s.cf[a].len.toNat then s.bufByte k else s.cf[a].data[k]) ∧
    (s.cf[a].v = false → exec (.cfwr a) s = .next { s with err := 9, einfo := 0 })

/-- R99: CFEQ returns 1 exactly when stored identifier, length, whole flags byte and the payload bytes below the length agree. -/
def Obligations.CfeqComparesFrames : Prop :=
  ∀ (s : State) (a b : Slot),
    encode (.cfeq a b) = pairWord 0x17 a b ∧
    (s.cf[a].v = true → s.cf[b].v = true → s.cf[a].len.toNat ≤ 8 → ∃ w : Word,
      exec (.cfeq a b) s = .next { s with x := s.x.set 0 w, err := 0, einfo := 0 } ∧ (w = 0 ∨ w = 1) ∧
      (w = 1 ↔ s.cf[a].id = s.cf[b].id ∧ s.cf[a].len = s.cf[b].len ∧ s.cf[a].flags = s.cf[b].flags ∧
        ∀ k (h : k < 8), k < s.cf[a].len.toNat → s.cf[a].data[k] = s.cf[b].data[k])) ∧
    (s.cf[a].v = false → exec (.cfeq a b) s = .next { s with err := 9, einfo := 0 }) ∧
    (s.cf[a].v = true → s.cf[b].v = false → exec (.cfeq a b) s = .next { s with err := 9, einfo := 1 })

/-- R99, R129: equality of valid slots that satisfy R29 and R31 is symmetric, and a slot equals itself. -/
def Obligations.EqualityIsSymmetric : Prop :=
  ∀ (s : State) (a b : Slot),
    (s.cf[a].v = true → s.cf[b].v = true → s.cf[a].Ok → s.cf[b].Ok → ∃ t,
      exec (.cfeq a b) s = .next t ∧ exec (.cfeq b a) s = .next t ∧ (a = b → t.x[0] = 1)) ∧
    (s.ff[a].v = true → s.ff[b].v = true → s.ff[a].Ok → s.ff[b].Ok → ∃ t,
      exec (.ffeq a b) s = .next t ∧ exec (.ffeq b a) s = .next t ∧ (a = b → t.x[0] = 1))

/-- R92: for a frame CFNEW built, CFID returns the identifier operand masked by the requested mode. R8 gives `EXT_MASK` a bit. -/
def Obligations.ConstructedIdentifierIsMasked : Prop :=
  ∀ (s : State) (a : Slot) (mode : Mode), s.masks.wellFormed = true → s.x[2].toNat ≤ 8 →
    ∃ t u, exec (.cfnew a mode) s = .next t ∧ exec (.cfid a) t = .next u ∧
      u.x[0] = s.x[0] &&& (if mode = .extended then 0x1FFFFFFF else 0x000007FF)

/-- R97 ("no padding visible"): whatever the host does to BUF and the registers after CFNEW, CFDATA on that frame returns exactly
the given bytes and their number. -/
def Obligations.ClassicViewShowsGivenBytes : Prop :=
  ∀ (s : State) (a : Slot) (mode : Mode), s.x[2].toNat ≤ 8 →
    ∃ t, exec (.cfnew a mode) s = .next t ∧ ∀ t' : State, t'.cf[a] = t.cf[a] →
      ∃ u, exec (.cfdata a) t' = .next u ∧ u.x[0] = s.x[2] ∧
        (∀ k, k < s.x[2].toNat → u.bufByte k = s.bufByte k) ∧ ∀ j, s.x[2].toNat ≤ j → u.bufByte j = t'.bufByte j

/-! ### Wire images (43_wire_image.md) -/

/-- R150, R153: CFLD loads the 14 bytes of BUF one to one when the length byte is at most 8, and refuses a larger one.
The byte order of the identifier clause, least significant byte first, is PRESUMED: assumption 8 (R56 takes it from general
knowledge). -/
def Obligations.CfldLoadsImage : Prop :=
  ∀ (s : State) (a : Slot),
    encode (.cfld a) = slotWord 0x18 a ∧
    ((s.bufByte 5).toNat ≤ 8 → ∃ c : ClassicFrame,
      exec (.cfld a) s = .next { s with cf := s.cf.set a.val c a.isLt, err := 0, einfo := 0 } ∧
      c.id.toNat = (s.bufByte 0).toNat + 256 * (s.bufByte 1).toNat + 65536 * (s.bufByte 2).toNat +
        16777216 * (s.bufByte 3).toNat ∧
      c.flags = s.bufByte 4 ∧ c.len = s.bufByte 5 ∧ c.v = true ∧ ∀ k (h : k < 8), c.data[k] = s.bufByte (6 + k)) ∧
    (8 < (s.bufByte 5).toNat → exec (.cfld a) s = .next { s with err := 10, einfo := 0 })

/-- R150, R154: CFST stores the fields of a valid slot in BUF[0..13], all eight payload bytes, and leaves the rest of BUF.
The byte order of the identifier clause, least significant byte first, is PRESUMED: assumption 8 (R56 takes it from general
knowledge). -/
def Obligations.CfstStoresImage : Prop :=
  ∀ (s : State) (a : Slot),
    encode (.cfst a) = slotWord 0x19 a ∧
    (s.cf[a].v = true → ∃ t, exec (.cfst a) s = .next t ∧ t = { s with buf := t.buf, err := 0, einfo := 0 } ∧
      (t.bufByte 0).toNat + 256 * (t.bufByte 1).toNat + 65536 * (t.bufByte 2).toNat + 16777216 * (t.bufByte 3).toNat =
        s.cf[a].id.toNat ∧
      t.bufByte 4 = s.cf[a].flags ∧ t.bufByte 5 = s.cf[a].len ∧
      (∀ k (h : k < 8), t.bufByte (6 + k) = s.cf[a].data[k]) ∧ ∀ j, 14 ≤ j → t.bufByte j = s.bufByte j) ∧
    (s.cf[a].v = false → exec (.cfst a) s = .next { s with err := 9, einfo := 0 })

/-- R151, R156: FFLD loads the 70 bytes of BUF one to one when the dlc byte is at most 15, and refuses a larger one.
The byte order of the identifier clause, least significant byte first, is PRESUMED: assumption 8 (R56 takes it from general
knowledge). -/
def Obligations.FfldLoadsImage : Prop :=
  ∀ (s : State) (a : Slot),
    encode (.ffld a) = slotWord 0x28 a ∧
    ((s.bufByte 5).toNat ≤ 15 → ∃ c : FdFrame,
      exec (.ffld a) s = .next { s with ff := s.ff.set a.val c a.isLt, err := 0, einfo := 0 } ∧
      c.id.toNat = (s.bufByte 0).toNat + 256 * (s.bufByte 1).toNat + 65536 * (s.bufByte 2).toNat +
        16777216 * (s.bufByte 3).toNat ∧
      c.flags = s.bufByte 4 ∧ c.dlc = s.bufByte 5 ∧ c.v = true ∧ ∀ k (h : k < 64), c.data[k] = s.bufByte (6 + k)) ∧
    (15 < (s.bufByte 5).toNat → exec (.ffld a) s = .next { s with err := 10, einfo := 0 })

/-- R151, R157: FFST stores the fields of a valid slot in BUF[0..69], all 64 payload bytes, and leaves the rest of BUF.
The byte order of the identifier clause, least significant byte first, is PRESUMED: assumption 8 (R56 takes it from general
knowledge). -/
def Obligations.FfstStoresImage : Prop :=
  ∀ (s : State) (a : Slot),
    encode (.ffst a) = slotWord 0x29 a ∧
    (s.ff[a].v = true → ∃ t, exec (.ffst a) s = .next t ∧ t = { s with buf := t.buf, err := 0, einfo := 0 } ∧
      (t.bufByte 0).toNat + 256 * (t.bufByte 1).toNat + 65536 * (t.bufByte 2).toNat + 16777216 * (t.bufByte 3).toNat =
        s.ff[a].id.toNat ∧
      t.bufByte 4 = s.ff[a].flags ∧ t.bufByte 5 = s.ff[a].dlc ∧
      (∀ k (h : k < 64), t.bufByte (6 + k) = s.ff[a].data[k]) ∧ ∀ j, 70 ≤ j → t.bufByte j = s.bufByte j) ∧
    (s.ff[a].v = false → exec (.ffst a) s = .next { s with err := 9, einfo := 0 })

/-- R158: store then load into any slot reproduces every field, backing bytes included, and the equality command then returns 1;
load then store writes back what BUF held. -/
def Obligations.ImagesRoundTrip : Prop :=
  (∀ (s : State) (a b : Slot), s.cf[a].v = true → s.cf[a].len.toNat ≤ 8 → ∃ t u w,
    exec (.cfst a) s = .next t ∧ exec (.cfld b) t = .next u ∧ u.err = 0 ∧ u.cf[b] = s.cf[a] ∧
    exec (.cfeq a b) u = .next w ∧ w.x[0] = 1) ∧
  (∀ (s : State) (a b : Slot), s.ff[a].v = true → s.ff[a].dlc.toNat ≤ 15 → ∃ t u w,
    exec (.ffst a) s = .next t ∧ exec (.ffld b) t = .next u ∧ u.err = 0 ∧ u.ff[b] = s.ff[a] ∧
    exec (.ffeq a b) u = .next w ∧ w.x[0] = 1) ∧
  (∀ (s : State) (a : Slot), (s.bufByte 5).toNat ≤ 8 → ∃ t u,
    exec (.cfld a) s = .next t ∧ exec (.cfst a) t = .next u ∧ ∀ j, u.bufByte j = s.bufByte j) ∧
  (∀ (s : State) (a : Slot), (s.bufByte 5).toNat ≤ 15 → ∃ t u,
    exec (.ffld a) s = .next t ∧ exec (.ffst a) t = .next u ∧ ∀ j, u.bufByte j = s.bufByte j)

/-! ### FD frames (42_fd_frame.md) and the DLC map (41_dlc_map.md) -/

/-- R121: FFNEW builds the frame when X2 <= 64, storing the code of the length and not the length, and raises FrameTooLarge when X2
is larger; no other check is made (R133). -/
def Obligations.FfnewBuildsFrame : Prop :=
  ∀ (s : State) (a : Slot) (mode : Mode) (fd brs : Bool),
    encode (.ffnew a mode fd brs) =
      slotWord 0x20 a ||| argBit (mode = .extended) 10 ||| argBit (fd = true) 11 ||| argBit (brs = true) 12 ∧
    (s.x[2].toNat ≤ 64 → ∃ c : FdFrame,
      exec (.ffnew a mode fd brs) s = .next { s with ff := s.ff.set a.val c a.isLt, err := 0, einfo := 0 } ∧
      c.id = s.x[0] &&& (if mode = .extended then 0x1FFFFFFF else 0x000007FF) ∧
      c.flags = (if mode = .extended then s.masks.ext else 0x00) ||| (if fd = true then s.masks.fd else 0x00) |||
        (if brs = true then s.masks.brs else 0x00) ∧
      calcDlc s.x[2].toNat = some c.dlc.toNat ∧ c.v = true ∧
      ∀ k (h : k < 64), c.data[k] = if k < s.x[2].toNat then s.bufByte k else 0x00) ∧
    (64 < s.x[2].toNat → exec (.ffnew a mode fd brs) s = .next { s with err := 1, einfo := 0 })

/-- R123, R124, R125: FFID, FFSTD and FFEXT read the identifier and the mode flag of an FD slot as CFID, CFSTD and CFEXT do. -/
def Obligations.FfidFfstdFfextReadFrame : Prop :=
  ∀ (s : State) (a : Slot),
    encode (.ffid a) = slotWord 0x21 a ∧ encode (.ffstd a) = slotWord 0x22 a ∧ encode (.ffext a) = slotWord 0x23 a ∧
    (s.ff[a].v = true →
      exec (.ffid a) s = .next { s with
        x := s.x.set 0 (s.ff[a].id &&& (if s.ff[a].flags &&& s.masks.ext ≠ 0 then 0x1FFFFFFF else 0x000007FF)),
        err := 0, einfo := 0 } ∧
      exec (.ffstd a) s = .next { s with
        x := s.x.set 0 (if s.ff[a].flags &&& s.masks.ext = 0 then 1 else 0), err := 0, einfo := 0 } ∧
      exec (.ffext a) s = .next { s with
        x := s.x.set 0 (if s.ff[a].flags &&& s.masks.ext = 0 then 0 else 1), err := 0, einfo := 0 }) ∧
    (s.ff[a].v = false →
      exec (.ffid a) s = .next { s with err := 9, einfo := 0 } ∧ exec (.ffstd a) s = .next { s with err := 9, einfo := 0 } ∧
      exec (.ffext a) s = .next { s with err := 9, einfo := 0 })

/-- R126, R130: FFDLC returns the stored code, FFLEN the byte length of that code (R111). R31 bounds the code. -/
def Obligations.FflenFfdlcReadCode : Prop :=
  ∀ (s : State) (a : Slot),
    encode (.fflen a) = slotWord 0x24 a ∧ encode (.ffdlc a) = slotWord 0x2A a ∧
    (s.ff[a].v = true →
      exec (.ffdlc a) s = .next { s with x := s.x.set 0 (s.ff[a].dlc.setWidth 32), err := 0, einfo := 0 } ∧
      ∀ n, dlcLen s.ff[a].dlc.toNat = some n →
        exec (.fflen a) s = .next { s with x := s.x.set 0 (BitVec.ofNat 32 n), err := 0, einfo := 0 }) ∧
    (s.ff[a].v = false →
      exec (.ffdlc a) s = .next { s with err := 9, einfo := 0 } ∧ exec (.fflen a) s = .next { s with err := 9, einfo := 0 })

/-- R127: FFDATA copies the view of the inverse-mapped length to the start of BUF, returns that length, and leaves the rest of BUF. -/
def Obligations.FfdataCopiesView : Prop :=
  ∀ (s : State) (a : Slot),
    encode (.ffdata a) = slotWord 0x25 a ∧
    (∀ n, s.ff[a].v = true → dlcLen s.ff[a].dlc.toNat = some n → ∃ t, exec (.ffdata a) s = .next t ∧
      t = { s with x := s.x.set 0 (BitVec.ofNat 32 n), buf := t.buf, err := 0, einfo := 0 } ∧
      (∀ k (h : k < 64), k < n → t.bufByte k = s.ff[a].data[k]) ∧ ∀ j, n ≤ j → t.bufByte j = s.bufByte j) ∧
    (s.ff[a].v = false → exec (.ffdata a) s = .next { s with err := 9, einfo := 0 })

/-- R128: FFWR replaces the bytes of the view, padding included, by those at the start of BUF and changes nothing else of the slot. -/
def Obligations.FfwrReplacesView : Prop :=
  ∀ (s : State) (a : Slot),
    encode (.ffwr a) = slotWord 0x26 a ∧
    (∀ n, s.ff[a].v = true → dlcLen s.ff[a].dlc.toNat = some n → ∃ d : Vector Byte 64,
      exec (.ffwr a) s = .next { s with ff := s.ff.set a.val { s.ff[a] with data := d } a.isLt, err := 0, einfo := 0 } ∧
      ∀ k (h : k < 64), d[k] = if k < n then s.bufByte k else s.ff[a].data[k]) ∧
    (s.ff[a].v = false → exec (.ffwr a) s = .next { s with err := 9, einfo := 0 })

/-- R129: FFEQ returns 1 exactly when stored identifier, code, whole flags byte and the payload bytes of the view agree. -/
def Obligations.FfeqComparesFrames : Prop :=
  ∀ (s : State) (a b : Slot),
    encode (.ffeq a b) = pairWord 0x27 a b ∧
    (∀ n, s.ff[a].v = true → s.ff[b].v = true → dlcLen s.ff[a].dlc.toNat = some n → ∃ w : Word,
      exec (.ffeq a b) s = .next { s with x := s.x.set 0 w, err := 0, einfo := 0 } ∧ (w = 0 ∨ w = 1) ∧
      (w = 1 ↔ s.ff[a].id = s.ff[b].id ∧ s.ff[a].dlc = s.ff[b].dlc ∧ s.ff[a].flags = s.ff[b].flags ∧
        ∀ k (h : k < 64), k < n → s.ff[a].data[k] = s.ff[b].data[k])) ∧
    (s.ff[a].v = false → exec (.ffeq a b) s = .next { s with err := 9, einfo := 0 }) ∧
    (s.ff[a].v = true → s.ff[b].v = false → exec (.ffeq a b) s = .next { s with err := 9, einfo := 1 })

/-- R131, R132: FFFD returns the stored fd flag and FFBRS the stored brs flag. -/
def Obligations.FffdFfbrsReadFlags : Prop :=
  ∀ (s : State) (a : Slot),
    encode (.fffd a) = slotWord 0x2B a ∧ encode (.ffbrs a) = slotWord 0x2C a ∧
    (s.ff[a].v = true →
      exec (.fffd a) s = .next { s with
        x := s.x.set 0 (if s.ff[a].flags &&& s.masks.fd ≠ 0 then 1 else 0), err := 0, einfo := 0 } ∧
      exec (.ffbrs a) s = .next { s with
        x := s.x.set 0 (if s.ff[a].flags &&& s.masks.brs ≠ 0 then 1 else 0), err := 0, einfo := 0 }) ∧
    (s.ff[a].v = false →
      exec (.fffd a) s = .next { s with err := 9, einfo := 0 } ∧ exec (.ffbrs a) s = .next { s with err := 9, einfo := 0 })

/-- R131, R132, R124, R125 corner cases: after FFNEW, FFFD, FFBRS and FFEXT return the fields the command word carried. R8's
constraint on the masks is what keeps the three apart. -/
def Obligations.FdFlagsRoundTrip : Prop :=
  ∀ (s : State) (a : Slot) (mode : Mode) (fd brs : Bool), s.masks.wellFormed = true → s.x[2].toNat ≤ 64 →
    ∃ t u v w, exec (.ffnew a mode fd brs) s = .next t ∧ exec (.fffd a) t = .next u ∧ exec (.ffbrs a) t = .next v ∧
      exec (.ffext a) t = .next w ∧ u.x[0] = (if fd = true then 1 else 0) ∧ v.x[0] = (if brs = true then 1 else 0) ∧
      w.x[0] = (if mode = .extended then 1 else 0)

/-- R122: a frame built from `n` bytes reports, without an error, the least representable length that is at least `n`, which is
`len(calc_dlc(n))`; its view shows the `n` bytes followed by zeros and the rest of the array is zero. -/
def Obligations.FdLengthGrowsSilently : Prop :=
  ∀ (s : State) (a : Slot) (mode : Mode) (fd brs : Bool), s.x[2].toNat ≤ 64 →
    ∃ t n, exec (.ffnew a mode fd brs) s = .next t ∧ t.err = 0 ∧ s.x[2].toNat ≤ n ∧
      n ∈ [0, 1, 2, 3, 4, 5, 6, 7, 8, 12, 16, 20, 24, 32, 48, 64] ∧
      (∀ r ∈ [0, 1, 2, 3, 4, 5, 6, 7, 8, 12, 16, 20, 24, 32, 48, 64], s.x[2].toNat ≤ r → n ≤ r) ∧
      (calcDlc s.x[2].toNat).bind dlcLen = some n ∧
      (∀ k (h : k < 64), s.x[2].toNat ≤ k → t.ff[a].data[k] = 0x00) ∧
      (∃ l, exec (.fflen a) t = .next l ∧ l.x[0].toNat = n ∧ l.err = 0) ∧
      ∃ u, exec (.ffdata a) t = .next u ∧ u.x[0].toNat = n ∧
        ∀ k, k < n → u.bufByte k = if k < s.x[2].toNat then s.bufByte k else 0x00

/-- R112: DLCENC maps the byte length in X0 to its code by R110's table, and raises FrameTooLarge above 64. -/
def Obligations.DlcencMapsLength : Prop :=
  ∀ s : State,
    encode .dlcenc = 0x30 ∧
    (s.x[0].toNat ≤ 64 → ∃ c : Nat,
      exec .dlcenc s = .next { s with x := s.x.set 0 (BitVec.ofNat 32 c), err := 0, einfo := 0 } ∧
      (s.x[0].toNat ≤ 8 → c = s.x[0].toNat) ∧
      (9 ≤ s.x[0].toNat ∧ s.x[0].toNat ≤ 12 → c = 9) ∧ (13 ≤ s.x[0].toNat ∧ s.x[0].toNat ≤ 16 → c = 10) ∧
      (17 ≤ s.x[0].toNat ∧ s.x[0].toNat ≤ 20 → c = 11) ∧ (21 ≤ s.x[0].toNat ∧ s.x[0].toNat ≤ 24 → c = 12) ∧
      (25 ≤ s.x[0].toNat ∧ s.x[0].toNat ≤ 32 → c = 13) ∧ (33 ≤ s.x[0].toNat ∧ s.x[0].toNat ≤ 48 → c = 14) ∧
      (49 ≤ s.x[0].toNat → c = 15)) ∧
    (64 < s.x[0].toNat → exec .dlcenc s = .next { s with err := 1, einfo := 0 })

/-- R113: DLCDEC maps the code in X0 to its byte length by R111's table, and raises LengthCodeInvalid above 15. -/
def Obligations.DlcdecMapsCode : Prop :=
  ∀ s : State,
    encode .dlcdec = 0x31 ∧
    (∀ h : s.x[0].toNat < 16, exec .dlcdec s = .next { s with
      x := s.x.set 0 (([0, 1, 2, 3, 4, 5, 6, 7, 8, 12, 16, 20, 24, 32, 48, 64] : List Word)[s.x[0].toNat]'h),
      err := 0, einfo := 0 }) ∧
    (15 < s.x[0].toNat → exec .dlcdec s = .next { s with err := 10, einfo := 0 })

/-- R114: the laws of `calc_dlc` and `len`: monotonic and onto, strictly increasing with the representable lengths as image, inverse
one way round, and rounding up to the least representable length the other way. -/
def Obligations.DlcMapLaws : Prop :=
  (∀ m n c d, calcDlc m = some c → calcDlc n = some d → m ≤ n → c ≤ d) ∧ calcDlc 10 = some 9 ∧ dlcLen 9 = some 12 ∧
  (∀ n, (calcDlc n).isSome = true ↔ n ≤ 64) ∧ (∀ c, c ≤ 15 ↔ ∃ n, calcDlc n = some c) ∧
  (∀ c d l m, dlcLen c = some l → dlcLen d = some m → c < d → l < m) ∧
  (∀ l, (∃ c, dlcLen c = some l) ↔ l ∈ [0, 1, 2, 3, 4, 5, 6, 7, 8, 12, 16, 20, 24, 32, 48, 64]) ∧
  (∀ c, c ≤ 15 → (dlcLen c).bind calcDlc = some c) ∧
  (∀ n c l, calcDlc n = some c → dlcLen c = some l → n ≤ l ∧
    (n = l ↔ n ∈ [0, 1, 2, 3, 4, 5, 6, 7, 8, 12, 16, 20, 24, 32, 48, 64]) ∧
    ∀ r ∈ [0, 1, 2, 3, 4, 5, 6, 7, 8, 12, 16, 20, 24, 32, 48, 64], n ≤ r → l ≤ r)

/-! ### Bit timing (44_classic_timing.md, 45_fd_timing.md) -/

/-- R167: BTNEW stores X0..X3 when all four are in bounds, and otherwise reports the index of the first that is not. -/
def Obligations.BtnewStoresOrReports : Prop :=
  ∀ s : State,
    encode .btnew = 0x40 ∧
    (within 1 64 s.x[0] → within 1 4 s.x[1] → within 1 16 s.x[2] → within 1 8 s.x[3] →
      exec .btnew s = .next { s with
        bt := { q := { prescaler := s.x[0], sjw := s.x[1], tseg1 := s.x[2], tseg2 := s.x[3] }, v := true },
        err := 0, einfo := 0 }) ∧
    ∀ k (hk : k < 4), (∀ j (hj : j < k), within 1 (([64, 4, 16, 8] : List Nat)[j]'(by simp; omega)) s.x[j]) →
      ¬ within 1 (([64, 4, 16, 8] : List Nat)[k]'(by simp; omega)) s.x[k] →
      exec .btnew s = .next { s with err := 2, einfo := BitVec.ofNat 4 k }

/-- R168, R169: BTENC packs a valid BT into X0: sjw − 1 in bits 15:14, prescaler − 1 in 13:8, 0 in bit 7, tseg2 − 1 in 6:4, tseg1 − 1 in
3:0; different valid quadruples give different values. R32 bounds the fields. -/
def Obligations.BtencPacksTiming : Prop :=
  encode .btenc = 0x41 ∧
  (∀ s : State, s.bt.v = true → s.bt.q.InClassic →
    exec .btenc s = .next { s with x := s.x.set 0 ((packTiming s.bt.q).setWidth 32), err := 0, einfo := 0 }) ∧
  (∀ s : State, s.bt.v = false → exec .btenc s = .next { s with err := 9, einfo := 0 }) ∧
  (∀ q : Quad, q.InClassic →
    (packTiming q).toNat = (q.sjw.toNat - 1) * 16384 + (q.prescaler.toNat - 1) * 256 + (q.tseg2.toNat - 1) * 16 +
      (q.tseg1.toNat - 1) ∧ (packTiming q).getLsbD 7 = false) ∧
  ∀ q r : Quad, q.InClassic → r.InClassic → packTiming q = packTiming r → q = r

/-- R177, R178: FBTNEW stores both phases when all eight registers are in bounds, and otherwise reports the first, in register order,
that is not. -/
def Obligations.FbtnewStoresOrReports : Prop :=
  ∀ s : State,
    encode .fbtnew = 0x48 ∧
    ((∀ k (hk : k < 8), within 1 (([1024, 128, 256, 128, 1024, 16, 32, 16] : List Nat)[k]'(by simp; omega)) s.x[k]) →
      exec .fbtnew s = .next { s with
        fbt := { nom := { prescaler := s.x[0], sjw := s.x[1], tseg1 := s.x[2], tseg2 := s.x[3] },
                 data := { prescaler := s.x[4], sjw := s.x[5], tseg1 := s.x[6], tseg2 := s.x[7] }, v := true },
        err := 0, einfo := 0 }) ∧
    ∀ k (hk : k < 8),
      (∀ j (hj : j < k), within 1 (([1024, 128, 256, 128, 1024, 16, 32, 16] : List Nat)[j]'(by simp; omega)) s.x[j]) →
      ¬ within 1 (([1024, 128, 256, 128, 1024, 16, 32, 16] : List Nat)[k]'(by simp; omega)) s.x[k] →
      exec .fbtnew s = .next { s with err := 2, einfo := BitVec.ofNat 4 k }

/-- R179, R180, R184: FBTENC writes the nine items in order and a NUL to the start of BUF, returns the length without the NUL, and
leaves the rest of BUF. R33 bounds the fields. -/
def Obligations.FbtencWritesDescriptor : Prop :=
  ∀ s : State,
    encode .fbtenc = 0x49 ∧
    (s.fbt.v = true → s.fbt.nom.InNominal → s.fbt.data.InData → ∃ t text,
      text = ascii "f_clock=80000000,nom_brp=" ++ dec s.fbt.nom.prescaler ++ ascii ",nom_tseg1=" ++ dec s.fbt.nom.tseg1 ++
        ascii ",nom_tseg2=" ++ dec s.fbt.nom.tseg2 ++ ascii ",nom_sjw=" ++ dec s.fbt.nom.sjw ++
        ascii ",data_brp=" ++ dec s.fbt.data.prescaler ++ ascii ",data_tseg1=" ++ dec s.fbt.data.tseg1 ++
        ascii ",data_tseg2=" ++ dec s.fbt.data.tseg2 ++ ascii ",data_sjw=" ++ dec s.fbt.data.sjw ∧
      exec .fbtenc s = .next t ∧
      t = { s with x := s.x.set 0 (BitVec.ofNat 32 text.length), buf := t.buf, err := 0, einfo := 0 } ∧
      (∀ k (h : k < text.length), t.bufByte k = text[k]) ∧ t.bufByte text.length = 0x00 ∧
      ∀ j, text.length < j → t.bufByte j = s.bufByte j) ∧
    (s.fbt.v = false → exec .fbtenc s = .next { s with err := 9, einfo := 0 })

/-- R183: the descriptor of a timing inside its bounds has 108 to 123 characters. -/
def Obligations.DescriptorFitsBuffer : Prop :=
  ∀ t : FdTiming, t.nom.InNominal → t.data.InData → 108 ≤ (descriptor t).length ∧ (descriptor t).length ≤ 123

/-- R181: `dec(v)` is a non-empty string of ASCII digits, most significant first, whose value is `v`, with no leading zero; up to
1024 it has at most four. -/
def Obligations.DecimalTextOfValue : Prop :=
  ∀ w : Word, dec w ≠ [] ∧ (∀ b ∈ dec w, 0x30 ≤ b.toNat ∧ b.toNat ≤ 0x39) ∧
    (dec w).foldl (fun acc b => 10 * acc + (b.toNat - 0x30)) 0 = w.toNat ∧
    ((dec w).head? = some 0x30 → dec w = [0x30]) ∧ (w.toNat ≤ 1024 → (dec w).length ≤ 4)
end

