-- ==== Sys2Proof/Laws/State.lean ====
section
/-! SUPPORT. One lemma per field of State for each update, true by rfl, so that no later proof unfolds a record update. -/

namespace Sys2Proof.Machine

variable (s : State)

/-! ### State.setX -/

@[simp] theorem State.setX_x (i : Fin 8) (w : Word) : (s.setX i w).x = s.x.set i.val w i.isLt := rfl
@[simp] theorem State.setX_err (i : Fin 8) (w : Word) : (s.setX i w).err = s.err := rfl
@[simp] theorem State.setX_einfo (i : Fin 8) (w : Word) : (s.setX i w).einfo = s.einfo := rfl
@[simp] theorem State.setX_buf (i : Fin 8) (w : Word) : (s.setX i w).buf = s.buf := rfl
@[simp] theorem State.setX_cf (i : Fin 8) (w : Word) : (s.setX i w).cf = s.cf := rfl
@[simp] theorem State.setX_ff (i : Fin 8) (w : Word) : (s.setX i w).ff = s.ff := rfl
@[simp] theorem State.setX_bt (i : Fin 8) (w : Word) : (s.setX i w).bt = s.bt := rfl
@[simp] theorem State.setX_fbt (i : Fin 8) (w : Word) : (s.setX i w).fbt = s.fbt := rfl
@[simp] theorem State.setX_masks (i : Fin 8) (w : Word) : (s.setX i w).masks = s.masks := rfl
@[simp] theorem State.setX_script (i : Fin 8) (w : Word) : (s.setX i w).script = s.script := rfl
@[simp] theorem State.setX_answers (i : Fin 8) (w : Word) : (s.setX i w).answers = s.answers := rfl
@[simp] theorem State.setX_resets (i : Fin 8) (w : Word) : (s.setX i w).resets = s.resets := rfl

/-! ### State.setCf -/

@[simp] theorem State.setCf_x (a : Slot) (f : ClassicFrame) : (s.setCf a f).x = s.x := rfl
@[simp] theorem State.setCf_err (a : Slot) (f : ClassicFrame) : (s.setCf a f).err = s.err := rfl
@[simp] theorem State.setCf_einfo (a : Slot) (f : ClassicFrame) : (s.setCf a f).einfo = s.einfo := rfl
@[simp] theorem State.setCf_buf (a : Slot) (f : ClassicFrame) : (s.setCf a f).buf = s.buf := rfl
@[simp] theorem State.setCf_cf (a : Slot) (f : ClassicFrame) : (s.setCf a f).cf = s.cf.set a.val f a.isLt := rfl
@[simp] theorem State.setCf_ff (a : Slot) (f : ClassicFrame) : (s.setCf a f).ff = s.ff := rfl
@[simp] theorem State.setCf_bt (a : Slot) (f : ClassicFrame) : (s.setCf a f).bt = s.bt := rfl
@[simp] theorem State.setCf_fbt (a : Slot) (f : ClassicFrame) : (s.setCf a f).fbt = s.fbt := rfl
@[simp] theorem State.setCf_masks (a : Slot) (f : ClassicFrame) : (s.setCf a f).masks = s.masks := rfl
@[simp] theorem State.setCf_script (a : Slot) (f : ClassicFrame) : (s.setCf a f).script = s.script := rfl
@[simp] theorem State.setCf_answers (a : Slot) (f : ClassicFrame) : (s.setCf a f).answers = s.answers := rfl
@[simp] theorem State.setCf_resets (a : Slot) (f : ClassicFrame) : (s.setCf a f).resets = s.resets := rfl

/-! ### State.setFf -/

@[simp] theorem State.setFf_x (a : Slot) (f : FdFrame) : (s.setFf a f).x = s.x := rfl
@[simp] theorem State.setFf_err (a : Slot) (f : FdFrame) : (s.setFf a f).err = s.err := rfl
@[simp] theorem State.setFf_einfo (a : Slot) (f : FdFrame) : (s.setFf a f).einfo = s.einfo := rfl
@[simp] theorem State.setFf_buf (a : Slot) (f : FdFrame) : (s.setFf a f).buf = s.buf := rfl
@[simp] theorem State.setFf_cf (a : Slot) (f : FdFrame) : (s.setFf a f).cf = s.cf := rfl
@[simp] theorem State.setFf_ff (a : Slot) (f : FdFrame) : (s.setFf a f).ff = s.ff.set a.val f a.isLt := rfl
@[simp] theorem State.setFf_bt (a : Slot) (f : FdFrame) : (s.setFf a f).bt = s.bt := rfl
@[simp] theorem State.setFf_fbt (a : Slot) (f : FdFrame) : (s.setFf a f).fbt = s.fbt := rfl
@[simp] theorem State.setFf_masks (a : Slot) (f : FdFrame) : (s.setFf a f).masks = s.masks := rfl
@[simp] theorem State.setFf_script (a : Slot) (f : FdFrame) : (s.setFf a f).script = s.script := rfl
@[simp] theorem State.setFf_answers (a : Slot) (f : FdFrame) : (s.setFf a f).answers = s.answers := rfl
@[simp] theorem State.setFf_resets (a : Slot) (f : FdFrame) : (s.setFf a f).resets = s.resets := rfl

/-! ### State.setBufByte -/

@[simp] theorem State.setBufByte_x (j : Nat) (b : Byte) : (s.setBufByte j b).x = s.x := rfl
@[simp] theorem State.setBufByte_err (j : Nat) (b : Byte) : (s.setBufByte j b).err = s.err := rfl
@[simp] theorem State.setBufByte_einfo (j : Nat) (b : Byte) : (s.setBufByte j b).einfo = s.einfo := rfl
@[simp] theorem State.setBufByte_buf (j : Nat) (b : Byte) : (s.setBufByte j b).buf = Mem.write s.buf j b := rfl
@[simp] theorem State.setBufByte_cf (j : Nat) (b : Byte) : (s.setBufByte j b).cf = s.cf := rfl
@[simp] theorem State.setBufByte_ff (j : Nat) (b : Byte) : (s.setBufByte j b).ff = s.ff := rfl
@[simp] theorem State.setBufByte_bt (j : Nat) (b : Byte) : (s.setBufByte j b).bt = s.bt := rfl
@[simp] theorem State.setBufByte_fbt (j : Nat) (b : Byte) : (s.setBufByte j b).fbt = s.fbt := rfl
@[simp] theorem State.setBufByte_masks (j : Nat) (b : Byte) : (s.setBufByte j b).masks = s.masks := rfl
@[simp] theorem State.setBufByte_script (j : Nat) (b : Byte) : (s.setBufByte j b).script = s.script := rfl
@[simp] theorem State.setBufByte_answers (j : Nat) (b : Byte) : (s.setBufByte j b).answers = s.answers := rfl
@[simp] theorem State.setBufByte_resets (j : Nat) (b : Byte) : (s.setBufByte j b).resets = s.resets := rfl

/-! ### State.raise -/

@[simp] theorem State.raise_x (e : CommandError) (n : BitVec 4) : (s.raise e n).x = s.x := rfl
@[simp] theorem State.raise_err (e : CommandError) (n : BitVec 4) : (s.raise e n).err = e.code := rfl
@[simp] theorem State.raise_einfo (e : CommandError) (n : BitVec 4) : (s.raise e n).einfo = n := rfl
@[simp] theorem State.raise_buf (e : CommandError) (n : BitVec 4) : (s.raise e n).buf = s.buf := rfl
@[simp] theorem State.raise_cf (e : CommandError) (n : BitVec 4) : (s.raise e n).cf = s.cf := rfl
@[simp] theorem State.raise_ff (e : CommandError) (n : BitVec 4) : (s.raise e n).ff = s.ff := rfl
@[simp] theorem State.raise_bt (e : CommandError) (n : BitVec 4) : (s.raise e n).bt = s.bt := rfl
@[simp] theorem State.raise_fbt (e : CommandError) (n : BitVec 4) : (s.raise e n).fbt = s.fbt := rfl
@[simp] theorem State.raise_masks (e : CommandError) (n : BitVec 4) : (s.raise e n).masks = s.masks := rfl
@[simp] theorem State.raise_script (e : CommandError) (n : BitVec 4) : (s.raise e n).script = s.script := rfl
@[simp] theorem State.raise_answers (e : CommandError) (n : BitVec 4) : (s.raise e n).answers = s.answers := rfl
@[simp] theorem State.raise_resets (e : CommandError) (n : BitVec 4) : (s.raise e n).resets = s.resets := rfl

/-! ### State.ok -/

@[simp] theorem State.ok_x : (s.ok).x = s.x := rfl
@[simp] theorem State.ok_err : (s.ok).err = 0 := rfl
@[simp] theorem State.ok_einfo : (s.ok).einfo = 0 := rfl
@[simp] theorem State.ok_buf : (s.ok).buf = s.buf := rfl
@[simp] theorem State.ok_cf : (s.ok).cf = s.cf := rfl
@[simp] theorem State.ok_ff : (s.ok).ff = s.ff := rfl
@[simp] theorem State.ok_bt : (s.ok).bt = s.bt := rfl
@[simp] theorem State.ok_fbt : (s.ok).fbt = s.fbt := rfl
@[simp] theorem State.ok_masks : (s.ok).masks = s.masks := rfl
@[simp] theorem State.ok_script : (s.ok).script = s.script := rfl
@[simp] theorem State.ok_answers : (s.ok).answers = s.answers := rfl
@[simp] theorem State.ok_resets : (s.ok).resets = s.resets := rfl

/-! ### State.answer -/

@[simp] theorem State.answer_x (w : Word) : (s.answer w).x = s.x.set 0 w := rfl
@[simp] theorem State.answer_err (w : Word) : (s.answer w).err = 0 := rfl
@[simp] theorem State.answer_einfo (w : Word) : (s.answer w).einfo = 0 := rfl
@[simp] theorem State.answer_buf (w : Word) : (s.answer w).buf = s.buf := rfl
@[simp] theorem State.answer_cf (w : Word) : (s.answer w).cf = s.cf := rfl
@[simp] theorem State.answer_ff (w : Word) : (s.answer w).ff = s.ff := rfl
@[simp] theorem State.answer_bt (w : Word) : (s.answer w).bt = s.bt := rfl
@[simp] theorem State.answer_fbt (w : Word) : (s.answer w).fbt = s.fbt := rfl
@[simp] theorem State.answer_masks (w : Word) : (s.answer w).masks = s.masks := rfl
@[simp] theorem State.answer_script (w : Word) : (s.answer w).script = s.script := rfl
@[simp] theorem State.answer_answers (w : Word) : (s.answer w).answers = s.answers := rfl
@[simp] theorem State.answer_resets (w : Word) : (s.answer w).resets = s.resets := rfl

/-! ### State.illegalCommand -/

@[simp] theorem State.illegalCommand_x : (s.illegalCommand).x = s.x := rfl
@[simp] theorem State.illegalCommand_err : (s.illegalCommand).err = 8 := rfl
@[simp] theorem State.illegalCommand_einfo : (s.illegalCommand).einfo = 0 := rfl
@[simp] theorem State.illegalCommand_buf : (s.illegalCommand).buf = s.buf := rfl
@[simp] theorem State.illegalCommand_cf : (s.illegalCommand).cf = s.cf := rfl
@[simp] theorem State.illegalCommand_ff : (s.illegalCommand).ff = s.ff := rfl
@[simp] theorem State.illegalCommand_bt : (s.illegalCommand).bt = s.bt := rfl
@[simp] theorem State.illegalCommand_fbt : (s.illegalCommand).fbt = s.fbt := rfl
@[simp] theorem State.illegalCommand_masks : (s.illegalCommand).masks = s.masks := rfl
@[simp] theorem State.illegalCommand_script : (s.illegalCommand).script = s.script := rfl
@[simp] theorem State.illegalCommand_answers : (s.illegalCommand).answers = s.answers := rfl
@[simp] theorem State.illegalCommand_resets : (s.illegalCommand).resets = s.resets := rfl

/-! ### State.replied -/

@[simp] theorem State.replied_x (a : Answer) : (s.replied a).x = s.x := rfl
@[simp] theorem State.replied_err (a : Answer) : (s.replied a).err = s.err := rfl
@[simp] theorem State.replied_einfo (a : Answer) : (s.replied a).einfo = s.einfo := rfl
@[simp] theorem State.replied_buf (a : Answer) : (s.replied a).buf = s.buf := rfl
@[simp] theorem State.replied_cf (a : Answer) : (s.replied a).cf = s.cf := rfl
@[simp] theorem State.replied_ff (a : Answer) : (s.replied a).ff = s.ff := rfl
@[simp] theorem State.replied_bt (a : Answer) : (s.replied a).bt = s.bt := rfl
@[simp] theorem State.replied_fbt (a : Answer) : (s.replied a).fbt = s.fbt := rfl
@[simp] theorem State.replied_masks (a : Answer) : (s.replied a).masks = s.masks := rfl
@[simp] theorem State.replied_script (a : Answer) : (s.replied a).script = s.script := rfl
@[simp] theorem State.replied_answers (a : Answer) : (s.replied a).answers = s.answers ++ [a] := rfl
@[simp] theorem State.replied_resets (a : Answer) : (s.replied a).resets = s.resets := rfl

/-! ### State.assertReset -/

@[simp] theorem State.assertReset_x : s.assertReset.x = State.reset.x := rfl
@[simp] theorem State.assertReset_err : s.assertReset.err = State.reset.err := rfl
@[simp] theorem State.assertReset_einfo : s.assertReset.einfo = State.reset.einfo := rfl
@[simp] theorem State.assertReset_buf : s.assertReset.buf = State.reset.buf := rfl
@[simp] theorem State.assertReset_cf : s.assertReset.cf = State.reset.cf := rfl
@[simp] theorem State.assertReset_ff : s.assertReset.ff = State.reset.ff := rfl
@[simp] theorem State.assertReset_bt : s.assertReset.bt = State.reset.bt := rfl
@[simp] theorem State.assertReset_fbt : s.assertReset.fbt = State.reset.fbt := rfl
@[simp] theorem State.assertReset_masks : s.assertReset.masks = s.masks := rfl
@[simp] theorem State.assertReset_script : s.assertReset.script = s.script := rfl
@[simp] theorem State.assertReset_answers : s.assertReset.answers = s.answers := rfl
@[simp] theorem State.assertReset_resets : s.assertReset.resets = s.resets + 1 := rfl

end Sys2Proof.Machine
end

