-- ==== Sys2Proof/Laws/Ops.lean ====
section
/-! SUPPORT. For each shared operation, what it can do: BUF's read-after-write laws and its canonical form, registers and slots
read back, the shared shapes of the meanings. -/

namespace Sys2Proof.Machine

/-! ### BUF: read after write, and the canonical form -/

theorem Mem.read_write_self (m : List Host.Cell) (j : Nat) (b : Byte) : Mem.read (Mem.write m j b) j = some b := by
  induction m with
  | nil => simp [Mem.write, Mem.read]
  | cons c m ih =>
    obtain ⟨k, v⟩ := c
    by_cases h1 : j < k
    · simp [Mem.write, h1, Mem.read]
    · by_cases h2 : j = k
      · simp [Mem.write, h2, Mem.read]
      · simp [Mem.write, h1, h2, Mem.read, ih]

theorem Mem.read_write_of_ne (m : List Host.Cell) {j k : Nat} (b : Byte) (h : k ≠ j) :
    Mem.read (Mem.write m j b) k = Mem.read m k := by
  induction m with
  | nil => simp [Mem.write, Mem.read, h]
  | cons c m ih =>
    obtain ⟨l, v⟩ := c
    by_cases h1 : j < l
    · simp [Mem.write, h1, Mem.read, h]
    · by_cases h2 : j = l
      · subst h2; simp [Mem.write, Mem.read, h]
      · simp [Mem.write, h1, h2, Mem.read, ih]

theorem Mem.wfFrom_write {m : List Host.Cell} {lo j : Nat} (b : Byte) (h : Mem.wfFrom lo m = true) (hlo : lo ≤ j)
    (hj : j < 128) : Mem.wfFrom lo (Mem.write m j b) = true := by
  induction m generalizing lo with
  | nil => simp [Mem.write, Mem.wfFrom, Config.bufSize, hlo, hj]
  | cons c m ih =>
    obtain ⟨k, v⟩ := c
    simp only [Mem.wfFrom, Bool.and_eq_true, decide_eq_true_eq, Config.bufSize] at h
    obtain ⟨⟨hk, hk'⟩, hm⟩ := h
    by_cases h1 : j < k
    · have : j + 1 ≤ k := h1
      simp [Mem.write, h1, Mem.wfFrom, Config.bufSize, hlo, hj, hk', hm, this]
    · by_cases h2 : j = k
      · subst h2; simp [Mem.write, Mem.wfFrom, Config.bufSize, hlo, hj, hm]
      · simp [Mem.write, h1, h2, Mem.wfFrom, Config.bufSize, hk, hk', ih hm (by omega)]

/-- A write inside BUF keeps the canonical form. -/
theorem Mem.write_wf {m : List Host.Cell} {j : Nat} (b : Byte) (h : Mem.wf m = true) (hj : j < 128) :
    Mem.wf (Mem.write m j b) = true := Mem.wfFrom_write b h (Nat.zero_le _) hj

/-- BUF has its canonical form after reset. -/
theorem Mem.wf_reset : Mem.wf State.reset.buf = true := rfl

theorem State.bufByte_setBufByte (s : State) (j k : Nat) (b : Byte) :
    (s.setBufByte j b).bufByte k = if k = j then b else s.bufByte k := by
  by_cases h : k = j
  · subst h; simp [State.bufByte, Mem.read_write_self]
  · simp [State.bufByte, Mem.read_write_of_ne _ _ h, h]

/-- Reading BUF depends on its contents and on the reset counter alone. -/
theorem State.bufByte_congr {s t : State} (hb : t.buf = s.buf) (hr : t.resets = s.resets) (j : Nat) :
    t.bufByte j = s.bufByte j := by simp [State.bufByte, hb, hr]

/-! ### Writing a byte string -/

/-- Writing bytes to BUF changes BUF alone. -/
theorem State.writeBuf_eq (bs : List Byte) (s : State) (j : Nat) :
    s.writeBuf j bs = { s with buf := (s.writeBuf j bs).buf } := by
  induction bs generalizing s j with
  | nil => rfl
  | cons b bs ih => simp only [State.writeBuf]; rw [ih]; rfl

section writeBuf
variable (s : State) (j : Nat) (bs : List Byte)
@[simp] theorem State.writeBuf_x : (s.writeBuf j bs).x = s.x := by rw [State.writeBuf_eq]
@[simp] theorem State.writeBuf_err : (s.writeBuf j bs).err = s.err := by rw [State.writeBuf_eq]
@[simp] theorem State.writeBuf_einfo : (s.writeBuf j bs).einfo = s.einfo := by rw [State.writeBuf_eq]
@[simp] theorem State.writeBuf_cf : (s.writeBuf j bs).cf = s.cf := by rw [State.writeBuf_eq]
@[simp] theorem State.writeBuf_ff : (s.writeBuf j bs).ff = s.ff := by rw [State.writeBuf_eq]
@[simp] theorem State.writeBuf_bt : (s.writeBuf j bs).bt = s.bt := by rw [State.writeBuf_eq]
@[simp] theorem State.writeBuf_fbt : (s.writeBuf j bs).fbt = s.fbt := by rw [State.writeBuf_eq]
@[simp] theorem State.writeBuf_masks : (s.writeBuf j bs).masks = s.masks := by rw [State.writeBuf_eq]
@[simp] theorem State.writeBuf_script : (s.writeBuf j bs).script = s.script := by rw [State.writeBuf_eq]
@[simp] theorem State.writeBuf_answers : (s.writeBuf j bs).answers = s.answers := by rw [State.writeBuf_eq]
@[simp] theorem State.writeBuf_resets : (s.writeBuf j bs).resets = s.resets := by rw [State.writeBuf_eq]
end writeBuf

/-- What BUF reads as after a byte string was written at `j`: the string inside, the old bytes outside. -/
theorem State.bufByte_writeBuf (bs : List Byte) (s : State) (j k : Nat) :
    (s.writeBuf j bs).bufByte k = if j ≤ k then (bs[k - j]?).getD (s.bufByte k) else s.bufByte k := by
  induction bs generalizing s j with
  | nil => simp [State.writeBuf]
  | cons b bs ih =>
    simp only [State.writeBuf]
    rw [ih, State.bufByte_setBufByte]
    by_cases h : k = j
    · subst h; simp
    · by_cases h2 : j ≤ k
      · have h3 : j + 1 ≤ k := by omega
        have h4 : k - j = (k - (j + 1)) + 1 := by omega
        simp [h, h2, h3, h4]
      · have h3 : ¬ j + 1 ≤ k := by omega
        simp [h, h2, h3]

/-- A byte string written inside BUF keeps the canonical form. -/
theorem State.writeBuf_wf (bs : List Byte) {s : State} {j : Nat} (h : Mem.wf s.buf = true) (hj : j + bs.length ≤ 128) :
    Mem.wf (s.writeBuf j bs).buf = true := by
  induction bs generalizing s j with
  | nil => simpa [State.writeBuf] using h
  | cons b bs ih =>
    simp only [List.length_cons] at hj
    exact ih (s := s.setBufByte j b) (Mem.write_wf b h (by omega)) (by omega)

/-! ### Ordinary updates leave BUF's bytes alone -/

section bufByte
variable (s : State) (j : Nat)
@[simp] theorem State.bufByte_setX (i : Fin 8) (w : Word) : (s.setX i w).bufByte j = s.bufByte j := rfl
@[simp] theorem State.bufByte_setCf (a : Slot) (f : ClassicFrame) : (s.setCf a f).bufByte j = s.bufByte j := rfl
@[simp] theorem State.bufByte_setFf (a : Slot) (f : FdFrame) : (s.setFf a f).bufByte j = s.bufByte j := rfl
@[simp] theorem State.bufByte_raise (e : CommandError) (n : BitVec 4) : (s.raise e n).bufByte j = s.bufByte j := rfl
@[simp] theorem State.bufByte_ok : s.ok.bufByte j = s.bufByte j := rfl
@[simp] theorem State.bufByte_answer (w : Word) : (s.answer w).bufByte j = s.bufByte j := rfl
@[simp] theorem State.bufByte_replied (a : Answer) : (s.replied a).bufByte j = s.bufByte j := rfl
end bufByte

/-! ### Slots and registers read back -/

theorem State.setCf_getElem (s : State) (a b : Slot) (f : ClassicFrame) :
    (s.setCf a f).cf[b] = if a = b then f else s.cf[b] := by
  simp [State.setCf, Vector.getElem_set, Fin.ext_iff]

theorem State.setFf_getElem (s : State) (a b : Slot) (f : FdFrame) :
    (s.setFf a f).ff[b] = if a = b then f else s.ff[b] := by
  simp [State.setFf, Vector.getElem_set, Fin.ext_iff]

theorem State.setX_getElem (s : State) (i k : Fin 8) (w : Word) :
    (s.setX i w).x[k] = if i = k then w else s.x[k] := by
  simp [State.setX, Vector.getElem_set, Fin.ext_iff]

@[simp] theorem State.answer_x0 (s : State) (w : Word) : (s.answer w).x[0] = w := by simp [State.answer, State.setX, State.ok]

theorem State.answer_getElem (s : State) (k : Fin 8) (w : Word) :
    (s.answer w).x[k] = if k = 0 then w else s.x[k] := by
  rcases eq_or_ne k 0 with h | h
  · subst h; simp [State.answer, State.setX, State.ok]
  · have : (0 : Nat) ≠ k.val := fun e => h (Fin.ext e.symm)
    simp [State.answer, State.setX, State.ok, h, this]

/-! ### The shared shapes of the meanings -/

theorem withClassic_valid {s : State} {a : Slot} (h : s.cf[a].v = true) (n : BitVec 4) (k : ClassicFrame → Result) :
    withClassic s a n k = k s.cf[a] := by simp only [withClassic, h, if_true]

theorem withClassic_invalid {s : State} {a : Slot} (h : s.cf[a].v = false) (n : BitVec 4) (k : ClassicFrame → Result) :
    withClassic s a n k = .next (s.raise .invalidSource n) := by simp only [withClassic, h, Bool.false_eq_true, if_false]

theorem withFd_valid {s : State} {a : Slot} (h : s.ff[a].v = true) (n : BitVec 4) (k : FdFrame → Result) :
    withFd s a n k = k s.ff[a] := by simp only [withFd, h, if_true]

theorem withFd_invalid {s : State} {a : Slot} (h : s.ff[a].v = false) (n : BitVec 4) (k : FdFrame → Result) :
    withFd s a n k = .next (s.raise .invalidSource n) := by simp only [withFd, h, Bool.false_eq_true, if_false]

/-- If a command over CF[a] answers a next state, it raised on an invalid slot or went on with a valid one. -/
theorem withClassic_next {s t : State} {a : Slot} {n : BitVec 4} {k : ClassicFrame → Result} (h : withClassic s a n k = .next t) :
    (s.cf[a].v = false ∧ t = s.raise .invalidSource n) ∨ (s.cf[a].v = true ∧ k s.cf[a] = .next t) := by
  cases hv : s.cf[a].v with
  | false => rw [withClassic_invalid hv] at h; exact .inl ⟨rfl, by injection h with h; exact h.symm⟩
  | true => rw [withClassic_valid hv] at h; exact .inr ⟨rfl, h⟩

/-- If a command over FF[a] answers a next state, it raised on an invalid slot or went on with a valid one. -/
theorem withFd_next {s t : State} {a : Slot} {n : BitVec 4} {k : FdFrame → Result} (h : withFd s a n k = .next t) :
    (s.ff[a].v = false ∧ t = s.raise .invalidSource n) ∨ (s.ff[a].v = true ∧ k s.ff[a] = .next t) := by
  cases hv : s.ff[a].v with
  | false => rw [withFd_invalid hv] at h; exact .inl ⟨rfl, by injection h with h; exact h.symm⟩
  | true => rw [withFd_valid hv] at h; exact .inr ⟨rfl, h⟩

theorem withClassicLength_of_le {c : ClassicFrame} (h : c.len.toNat ≤ 8) (k : Nat → Result) :
    withClassicLength c k = k c.len.toNat := by simp only [withClassicLength, Config.capClassic, h, if_true]

/-- A classic view that goes on has a length of at most 8. -/
theorem withClassicLength_next {t : State} {c : ClassicFrame} {k : Nat → Result} (h : withClassicLength c k = .next t) :
    c.len.toNat ≤ 8 ∧ k c.len.toNat = .next t := by
  by_cases hc : c.len.toNat ≤ 8
  · rw [withClassicLength_of_le hc] at h; exact ⟨hc, h⟩
  · simp [withClassicLength, Config.capClassic, hc] at h

theorem withFdLength_of_some {c : FdFrame} {n : Nat} (h : dlcLen c.dlc.toNat = some n) (k : Nat → Result) :
    withFdLength c k = k n := by simp only [withFdLength, h]

/-- An FD view that goes on has the length of its code. -/
theorem withFdLength_next {t : State} {c : FdFrame} {k : Nat → Result} (h : withFdLength c k = .next t) :
    ∃ n, dlcLen c.dlc.toNat = some n ∧ k n = .next t := by
  cases hc : dlcLen c.dlc.toNat with
  | none => simp [withFdLength, hc] at h
  | some n => rw [withFdLength_of_some hc] at h; exact ⟨n, rfl, h⟩

/-! ### The computed values -/

theorem dlcLen_le {c n : Nat} (h : dlcLen c = some n) : c ≤ 15 ∧ n ≤ 64 := by
  have hc : c < 16 := by
    by_contra hc
    have : dlcLengths.length ≤ c := by simp [dlcLengths]; omega
    rw [dlcLen, List.getElem?_eq_none this] at h
    cases h
  interval_cases c <;> simp [dlcLen, dlcLengths] at h <;> omega

theorem dlcLen_isSome {c : Nat} (h : c ≤ 15) : ∃ n, dlcLen c = some n ∧ n ≤ 64 := by
  have hs : (dlcLen c).isSome = true := by simp [dlcLen, dlcLengths]; omega
  obtain ⟨n, hn⟩ := Option.isSome_iff_exists.mp hs
  exact ⟨n, hn, (dlcLen_le hn).2⟩

theorem calcDlc_eq_none {n : Nat} : calcDlc n = none ↔ 64 < n := by
  unfold calcDlc
  repeat' split
  all_goals simp
  all_goals omega

theorem calcDlc_le {n c : Nat} (h : calcDlc n = some c) : n ≤ 64 ∧ c ≤ 15 := by
  unfold calcDlc at h
  repeat' split at h
  all_goals simp at h
  all_goals omega

@[simp] theorem view_length {cap : Nat} (d : Vector Byte cap) (n : Nat) : (view d n).length = min n cap := by simp [view]

@[simp] theorem State.payload_getElem (s : State) (cap n i : Nat) (h : i < cap) :
    (s.payload cap n)[i] = if i < n then s.bufByte i else 0 := by simp [State.payload]

@[simp] theorem State.overwrite_getElem {cap : Nat} (s : State) (d : Vector Byte cap) (n i : Nat) (h : i < cap) :
    (s.overwrite d n)[i] = if i < n then s.bufByte i else d[i] := by simp [State.overwrite]

@[simp] theorem State.imageData_getElem (s : State) (cap i : Nat) (h : i < cap) :
    (s.imageData cap)[i] = s.bufByte (6 + i) := by simp [State.imageData]

@[simp] theorem ClassicFrame.image_length (c : ClassicFrame) : c.image.length = 14 := by simp [ClassicFrame.image, bytesLe32]

@[simp] theorem FdFrame.image_length (c : FdFrame) : c.image.length = 70 := by simp [FdFrame.image, bytesLe32]

/-- The range check answers nothing exactly when every field is inside its bounds (one bound per value). -/
theorem firstOutOfBounds_cons (b : Nat × Nat) (bs : List (Nat × Nat)) (v : Word) (vs : List Word) :
    firstOutOfBounds (b :: bs) (v :: vs) = if inBounds b v then (firstOutOfBounds bs vs).map (· + 1) else some 0 := rfl

@[simp] theorem firstOutOfBounds_nil (vs : List Word) : firstOutOfBounds [] vs = none := by cases vs <;> rfl

theorem inBounds_iff (lo hi : Nat) (v : Word) : inBounds (lo, hi) v = true ↔ within lo hi v := by simp [inBounds, within]

/-- The index reported is below the number of bounds. -/
theorem firstOutOfBounds_lt {bs : List (Nat × Nat)} {vs : List Word} {k : Nat} (h : firstOutOfBounds bs vs = some k) :
    k < bs.length := by
  induction bs generalizing vs k with
  | nil => simp at h
  | cons b bs ih =>
    cases vs with
    | nil => simp [firstOutOfBounds] at h
    | cons v vs =>
      rw [firstOutOfBounds_cons] at h
      split at h
      · obtain ⟨m, hm, rfl⟩ := Option.map_eq_some_iff.mp h
        have := ih hm
        simp; omega
      · simp at h; subst h; simp

/-! ### Results as plain data -/

/-- A returned value: X0, `err` and `einfo` are written, nothing else. -/
theorem State.answer_eq (s : State) (w : Word) : s.answer w = { s with x := s.x.set 0 w, err := 0, einfo := 0 } := rfl

/-- A byte string and a returned value: BUF, X0, `err` and `einfo` are written, nothing else. -/
theorem State.writeBuf_answer_eq (s : State) (bs : List Byte) (w : Word) : (s.writeBuf 0 bs).answer w =
    { s with x := s.x.set 0 w, buf := ((s.writeBuf 0 bs).answer w).buf, err := 0, einfo := 0 } := by
  rw [State.writeBuf_eq]; rfl

/-- A byte string alone: BUF, `err` and `einfo` are written, nothing else. -/
theorem State.writeBuf_ok_eq (s : State) (bs : List Byte) :
    (s.writeBuf 0 bs).ok = { s with buf := (s.writeBuf 0 bs).ok.buf, err := 0, einfo := 0 } := by
  rw [State.writeBuf_eq]; rfl

theorem idMask_eq (m : Mode) : idMask m = if m = .extended then 0x1FFFFFFF else 0x000007FF := by cases m <;> rfl

theorem hasFlag_iff (flags mask : Byte) : hasFlag flags mask = true ↔ flags &&& mask ≠ 0 := by simp [hasFlag]

theorem visibleId_eq (m : FlagMasks) (flags : Byte) (id : Word) :
    visibleId m flags id = id &&& (if flags &&& m.ext ≠ 0 then 0x1FFFFFFF else 0x000007FF) := by
  simp only [visibleId, storedMode, hasFlag, idMask_eq]
  by_cases h : flags &&& m.ext = 0 <;> simp [h]

theorem boolWord_hasFlag (flags mask : Byte) : boolWord (hasFlag flags mask) = if flags &&& mask ≠ 0 then 1 else 0 := by
  by_cases h : flags &&& mask = 0 <;> simp [hasFlag, boolWord, h]

theorem boolWord_not_hasFlag (flags mask : Byte) :
    boolWord (!hasFlag flags mask) = if flags &&& mask = 0 then 1 else 0 := by
  by_cases h : flags &&& mask = 0 <;> simp [hasFlag, boolWord, h]

theorem boolWord_eq_one (b : Bool) : boolWord b = 1 ↔ b = true := by cases b <;> simp [boolWord]

theorem view_getElem? {cap : Nat} (d : Vector Byte cap) {n k : Nat} (h : k < n) (h' : k < cap) : (view d n)[k]? = some d[k] := by
  simp [view, h, h']

/-- Two views of one length are equal exactly when their bytes are. -/
theorem sameView_iff {cap : Nat} (d e : Vector Byte cap) (n : Nat) :
    sameView d e n = true ↔ ∀ k (h : k < cap), k < n → d[k] = e[k] := by
  simp only [sameView, beq_iff_eq, view]
  constructor
  · intro h k hk hn
    have := congrArg (·[k]?) h
    simpa [List.getElem?_take, hn, hk] using this
  · intro h
    apply List.ext_getElem?
    intro k
    by_cases hn : k < n
    · by_cases hk : k < cap
      · simp [hn, hk, h k hk hn]
      · rw [List.getElem?_eq_none (by simp; omega), List.getElem?_eq_none (by simp; omega)]
    · simp [hn]

theorem toNat_append {m n : Nat} (a : BitVec m) (b : BitVec n) : (a ++ b).toNat = a.toNat * 2 ^ n + b.toNat := by
  rw [BitVec.toNat_append, Nat.shiftLeft_eq, Nat.mul_comm, ← Nat.two_pow_add_eq_or_of_lt b.isLt]

theorem le32_toNat (a b c d : Byte) :
    (le32 a b c d).toNat = a.toNat + 256 * b.toNat + 65536 * c.toNat + 16777216 * d.toNat := by
  simp only [le32]
  erw [toNat_append, toNat_append, toNat_append]
  omega

/-- The four bytes of a word add up to it. -/
theorem bytesLe32_toNat (w : Word) : (w.extractLsb' 0 8).toNat + 256 * (w.extractLsb' 8 8).toNat +
    65536 * (w.extractLsb' 16 8).toNat + 16777216 * (w.extractLsb' 24 8).toNat = w.toNat := by
  simp only [BitVec.extractLsb'_toNat, Nat.shiftRight_eq_div_pow]
  have := w.isLt
  omega

/-- R12: `bytes_le32` is the string whose `le32` is the word. -/
theorem le32_bytes (w : Word) :
    le32 (w.extractLsb' 0 8) (w.extractLsb' 8 8) (w.extractLsb' 16 8) (w.extractLsb' 24 8) = w :=
  BitVec.eq_of_toNat_eq (by rw [le32_toNat, bytesLe32_toNat])

/-- What BUF reads as after a byte string was written at its start. -/
theorem State.bufByte_writeBuf_zero (s : State) (bs : List Byte) (k : Nat) :
    (s.writeBuf 0 bs).bufByte k = (bs[k]?).getD (s.bufByte k) := by simp [State.bufByte_writeBuf]

/-- A slot written reads back, and so does one that already held the frame written elsewhere. -/
theorem State.setCf_ok_self (s : State) (a : Slot) (f : ClassicFrame) : (s.setCf a f).ok.cf[a] = f := by
  have := State.setCf_getElem s a a f
  simp only [if_true] at this
  exact this

theorem State.setFf_ok_self (s : State) (a : Slot) (f : FdFrame) : (s.setFf a f).ok.ff[a] = f := by
  have := State.setFf_getElem s a a f
  simp only [if_true] at this
  exact this

theorem State.setCf_ok_of_eq {s : State} {a b : Slot} {f : ClassicFrame} (h : s.cf[a] = f) : (s.setCf b f).ok.cf[a] = f := by
  have := State.setCf_getElem s b a f
  simp only [h, ite_self] at this
  exact this

theorem State.setFf_ok_of_eq {s : State} {a b : Slot} {f : FdFrame} (h : s.ff[a] = f) : (s.setFf b f).ok.ff[a] = f := by
  have := State.setFf_getElem s b a f
  simp only [h, ite_self] at this
  exact this

/-- Writing bytes to BUF does not look at the timing registers. -/
theorem State.writeBuf_withTiming (bs : List Byte) (j : Nat) (s : State) (b : ClassicTiming) (f : FdTiming) :
    State.writeBuf { s with bt := b, fbt := f } j bs = { s.writeBuf j bs with bt := b, fbt := f } := by
  induction bs generalizing j s with
  | nil => rfl
  | cons x bs ih => exact ih (j + 1) (s.setBufByte j x)

/-- Writing bytes to BUF does not look at the slots. -/
theorem State.writeBuf_withSlots (bs : List Byte) (j : Nat) (s : State) (c : Vector ClassicFrame 2) (f : Vector FdFrame 2) :
    State.writeBuf { s with cf := c, ff := f } j bs = { s.writeBuf j bs with cf := c, ff := f } := by
  induction bs generalizing j s with
  | nil => rfl
  | cons x bs ih => exact ih (j + 1) (s.setBufByte j x)

/-- The rows of R110's table. -/
theorem calcDlc_cases {n c : Nat} (h : calcDlc n = some c) :
    (n ≤ 8 ∧ c = n) ∨ (9 ≤ n ∧ n ≤ 12 ∧ c = 9) ∨ (13 ≤ n ∧ n ≤ 16 ∧ c = 10) ∨ (17 ≤ n ∧ n ≤ 20 ∧ c = 11) ∨
    (21 ≤ n ∧ n ≤ 24 ∧ c = 12) ∨ (25 ≤ n ∧ n ≤ 32 ∧ c = 13) ∨ (33 ≤ n ∧ n ≤ 48 ∧ c = 14) ∨ (49 ≤ n ∧ n ≤ 64 ∧ c = 15) := by
  unfold calcDlc at h
  repeat' split at h
  all_goals simp at h
  all_goals omega

theorem oneBit_cases {m : Byte} (h : oneBit m = true) :
    m = 1 ∨ m = 2 ∨ m = 4 ∨ m = 8 ∨ m = 0x10 ∨ m = 0x20 ∨ m = 0x40 ∨ m = 0x80 := by
  revert h
  revert m
  decide

/-- R8's constraint keeps the three flags of a constructed FD frame apart. -/
theorem fdFlags_hasFlag {m : FlagMasks} (hm : m.wellFormed = true) (mode : Mode) (fd brs : Bool) :
    hasFlag (fdFlags m mode fd brs) m.fd = fd ∧ hasFlag (fdFlags m mode fd brs) m.brs = brs ∧
      hasFlag (fdFlags m mode fd brs) m.ext = (mode == .extended) := by
  obtain ⟨x, y, z⟩ := m
  simp only [FlagMasks.wellFormed, Bool.and_eq_true] at hm
  obtain ⟨⟨⟨⟨⟨h1, h2⟩, h3⟩, h4⟩, h5⟩, h6⟩ := hm
  rcases oneBit_cases h1 with rfl | rfl | rfl | rfl | rfl | rfl | rfl | rfl <;>
    rcases oneBit_cases h2 with rfl | rfl | rfl | rfl | rfl | rfl | rfl | rfl <;>
    first
    | (exfalso; revert h4; decide)
    | (rcases oneBit_cases h3 with rfl | rfl | rfl | rfl | rfl | rfl | rfl | rfl <;>
        first
        | (exfalso; revert h5; decide)
        | (exfalso; revert h6; decide)
        | (cases mode <;> cases fd <;> cases brs <;> decide))

end Sys2Proof.Machine
end

