-- ==== Sys2Proof/Laws/Exec.lean ====
section
/-! SUPPORT. Everything a command can do, said once: if exec answers a next state, that state is one of the shapes below. The frames and
the invariants follow from it. -/

namespace Sys2Proof.Machine

/-- A timing accepted by the range check lies inside its bounds. -/
theorem lowQuad_inClassic {s : State} (h : firstOutOfBounds Config.classicBounds (lowQuad s).fields = none) :
    (lowQuad s).InClassic := by
  simp only [Config.classicBounds, Quad.fields, firstOutOfBounds_cons, firstOutOfBounds_nil] at h
  repeat' split at h
  all_goals simp_all [inBounds_iff, Quad.InClassic]

/-- The converse of the range check on BT. -/
theorem Quad.classicOk_iff (q : Quad) : q.classicOk = true ↔ q.InClassic := by
  simp only [Quad.classicOk, Config.classicBounds, Quad.fields, firstOutOfBounds_cons, firstOutOfBounds_nil, Quad.InClassic,
    ← inBounds_iff]
  repeat' split
  all_goals simp_all

/-- The range check of both phases of an FD timing. -/
theorem fdBounds_none_iff (q r : Quad) :
    firstOutOfBounds fdBounds (q.fields ++ r.fields) = none ↔ q.InNominal ∧ r.InData := by
  simp only [fdBounds, Config.nominalBounds, Config.dataBounds, Quad.fields, List.cons_append, List.nil_append,
    firstOutOfBounds_cons, firstOutOfBounds_nil, Quad.InNominal, Quad.InData, ← inBounds_iff]
  repeat' split
  all_goals simp_all

theorem FdTiming.inRange_iff (t : FdTiming) : t.inRange = true ↔ t.nom.InNominal ∧ t.data.InData := by
  rw [← fdBounds_none_iff, FdTiming.inRange, Option.isNone_iff_eq_none]

/-- A decimal text has at least one digit. -/
theorem decDigits_length_pos (fuel v : Nat) : 1 ≤ (decDigits fuel v).length := by
  cases fuel <;> simp only [decDigits]
  · simp
  · split <;> simp

/-- The decimal text of a value below 10^(k+1) has at most k + 1 digits. -/
theorem decDigits_length_le {k : Nat} (fuel v : Nat) (h : v < 10 ^ (k + 1)) : (decDigits fuel v).length ≤ k + 1 := by
  induction k generalizing fuel v with
  | zero => cases fuel <;> simp_all [decDigits]
  | succ k ih =>
    cases fuel with
    | zero => simp [decDigits]
    | succ fuel =>
      rw [decDigits]
      split
      · simp
      · have := ih fuel (v / 10) (by rw [Nat.div_lt_iff_lt_mul (by omega)]; rw [pow_succ] at h; exact h)
        simp; omega

theorem dec_length_pos (w : Word) : 1 ≤ (dec w).length := decDigits_length_pos _ _

theorem dec_length_le {k : Nat} {w : Word} (h : w.toNat < 10 ^ (k + 1)) : (dec w).length ≤ k + 1 := decDigits_length_le _ _ h

/-- The number of characters of a descriptor: 100 fixed ones and the eight decimal texts (R183). -/
theorem descriptor_length (t : FdTiming) :
    (descriptor t).length = 100 + ((dec t.nom.prescaler).length + (dec t.nom.tseg1).length + (dec t.nom.tseg2).length +
      (dec t.nom.sjw).length + (dec t.data.prescaler).length + (dec t.data.tseg1).length + (dec t.data.tseg2).length +
      (dec t.data.sjw).length) := by
  have h : (dec (BitVec.ofNat 32 Config.fClock)).length = 8 := by decide
  simp only [descriptor, List.length_append, h, keyFClock, keyNomBrp, keyNomTseg1, keyNomTseg2, keyNomSjw, keyDataBrp,
    keyDataTseg1, keyDataTseg2, keyDataSjw, ascii, List.length_map]
  simp
  omega

/-- The descriptor of a timing inside its bounds fits BUF with its NUL. -/
theorem descriptor_length_le {t : FdTiming} (h : t.inRange = true) : (descriptor t).length ≤ 123 := by
  obtain ⟨⟨⟨_, h1⟩, ⟨_, h2⟩, ⟨_, h3⟩, _, h4⟩, ⟨_, h5⟩, ⟨_, h6⟩, ⟨_, h7⟩, _, h8⟩ := (FdTiming.inRange_iff t).mp h
  have := dec_length_le (k := 3) (w := t.nom.prescaler) (by omega)
  have := dec_length_le (k := 2) (w := t.nom.sjw) (by omega)
  have := dec_length_le (k := 2) (w := t.nom.tseg1) (by omega)
  have := dec_length_le (k := 2) (w := t.nom.tseg2) (by omega)
  have := dec_length_le (k := 3) (w := t.data.prescaler) (by omega)
  have := dec_length_le (k := 1) (w := t.data.sjw) (by omega)
  have := dec_length_le (k := 1) (w := t.data.tseg1) (by omega)
  have := dec_length_le (k := 1) (w := t.data.tseg2) (by omega)
  rw [descriptor_length]; omega

/-- R202: the information that goes with an error of a command. -/
def infoOk (i : Instr) (e : CommandError) (n : BitVec 4) : Prop :=
  match e with
  | .timingOutOfBounds => n.toNat ≤ 7 ∧ (i = .btnew → n.toNat ≤ 3)
  | .invalidSource => n = 0 ∨ n = 1 ∧ ∃ a b, i = .cfeq a b ∨ i = .ffeq a b
  | _ => n = 0

/-- The shapes of a command's next state: an error raised (nothing else changed), or success with the writes R76 gives the
command. -/
inductive Shape (i : Instr) (s : State) : State → Prop
  | raised (e : CommandError) (n : BitVec 4) (can : canRaise e i = true) (info : infoOk i e n) : Shape i s (s.raise e n)
  | done : i = .nop → Shape i s s.ok
  | answered (w : Word) (h : writesX0 i = true) : Shape i s (s.answer w)
  | viewed (bs : List Byte) (w : Word) (h : writesX0 i = true) (hb : bs.length ≤ bufWritten s i) (hl : bs.length ≤ 128) :
      Shape i s ((s.writeBuf 0 bs).answer w)
  | stored (bs : List Byte) (hb : bs.length ≤ bufWritten s i) (hl : bs.length ≤ 128) : Shape i s (s.writeBuf 0 bs).ok
  | classicBuilt (a : Slot) (c : ClassicFrame) (h : writesCf a i = true) (v : c.v = true) (ok : c.len.toNat ≤ 8)
      (w : i = .cfwr a → c = { s.cf[a] with data := c.data }) : Shape i s (s.setCf a c).ok
  | fdBuilt (a : Slot) (c : FdFrame) (h : writesFf a i = true) (v : c.v = true) (ok : c.dlc.toNat ≤ 15)
      (w : i = .ffwr a → c = { s.ff[a] with data := c.data }) : Shape i s (s.setFf a c).ok
  | classicTimed (q : Quad) (h : i = .btnew) (ok : q.InClassic) : Shape i s (State.ok { s with bt := { q := q, v := true } })
  | fdTimed (q r : Quad) (h : i = .fbtnew) (hq : q.InNominal) (hr : r.InData) :
      Shape i s (State.ok { s with fbt := { nom := q, data := r, v := true } })

theorem shape_withClassic {i : Instr} {s t : State} {a : Slot} {n : BitVec 4} {k : ClassicFrame → Result}
    (h : withClassic s a n k = .next t) (can : canRaise .invalidSource i = true) (info : infoOk i .invalidSource n)
    (hk : s.cf[a].v = true → k s.cf[a] = .next t → Shape i s t) : Shape i s t := by
  rcases withClassic_next h with ⟨_, rfl⟩ | ⟨hv, h⟩
  · exact .raised _ _ can info
  · exact hk hv h

theorem shape_withFd {i : Instr} {s t : State} {a : Slot} {n : BitVec 4} {k : FdFrame → Result}
    (h : withFd s a n k = .next t) (can : canRaise .invalidSource i = true) (info : infoOk i .invalidSource n)
    (hk : s.ff[a].v = true → k s.ff[a] = .next t → Shape i s t) : Shape i s t := by
  rcases withFd_next h with ⟨_, rfl⟩ | ⟨hv, h⟩
  · exact .raised _ _ can info
  · exact hk hv h

theorem shape_readClassic {i : Instr} {s t : State} {a : Slot} {f : ClassicFrame → Word} (h : readClassic s a f = .next t)
    (can : canRaise .invalidSource i = true) (hx : writesX0 i = true) : Shape i s t :=
  shape_withClassic h can (.inl rfl) fun _ h => by
    injection h with h; subst h; exact .answered _ hx

theorem shape_readFd {i : Instr} {s t : State} {a : Slot} {f : FdFrame → Word} (h : readFd s a f = .next t)
    (can : canRaise .invalidSource i = true) (hx : writesX0 i = true) : Shape i s t :=
  shape_withFd h can (.inl rfl) fun _ h => by
    injection h with h; subst h; exact .answered _ hx

/-- If a command answers a next state, it has one of the shapes. -/
theorem exec_next {i : Instr} {s t : State} (h : exec i s = .next t) : Shape i s t := by
  cases i with
  | nop => injection h with h; subst h; exact .done rfl
  | cfnew a mode =>
    injection h with h; subst h
    split
    · exact .raised _ _ rfl rfl
    · next hn =>
      simp only [Config.capClassic] at hn
      refine .classicBuilt a _ (by simp [writesCf]) rfl ?_ (by simp)
      simp [newClassic]; omega
  | cfid a | cfstd a | cfext a | cflen a =>
    simp only [exec, execCfid, execCfstd, execCfext, execCflen] at h
    exact shape_readClassic h rfl rfl
  | ffid a | ffstd a | ffext a | ffdlc a | fffd a | ffbrs a =>
    simp only [exec, execFfid, execFfstd, execFfext, execFfdlc, execFffd, execFfbrs] at h
    exact shape_readFd h rfl rfl
  | cfdata a =>
    simp only [exec, execCfdata] at h
    refine shape_withClassic h rfl (.inl rfl) fun _ h => ?_
    obtain ⟨hl, h⟩ := withClassicLength_next h
    injection h with h; subst h
    exact .viewed _ _ rfl (by simp [bufWritten]) (by simp)
  | cfwr a =>
    simp only [exec, execCfwr] at h
    refine shape_withClassic h rfl (.inl rfl) fun hv h => ?_
    obtain ⟨hl, h⟩ := withClassicLength_next h
    injection h with h; subst h
    exact .classicBuilt a _ (by simp [writesCf]) hv hl (fun _ => rfl)
  | cfeq a b =>
    simp only [exec, execCfeq] at h
    refine shape_withClassic h rfl (.inl rfl) fun _ h => ?_
    refine shape_withClassic h rfl (.inr ⟨rfl, a, b, .inl rfl⟩) fun _ h => ?_
    split at h
    · obtain ⟨_, h⟩ := withClassicLength_next h
      injection h with h; subst h; exact .answered _ rfl
    · injection h with h; subst h; exact .answered _ rfl
  | cfld a =>
    injection h with h; subst h
    split
    · exact .raised _ _ rfl rfl
    · next hn => exact .classicBuilt a _ (by simp [writesCf]) rfl (by simpa [loadedClassic, Config.capClassic] using hn) (by simp)
  | cfst a =>
    simp only [exec, execCfst] at h
    refine shape_withClassic h rfl (.inl rfl) fun _ h => ?_
    injection h with h; subst h
    exact .stored _ (by simp [bufWritten]) (by simp)
  | ffnew a mode fd brs =>
    injection h with h; subst h
    split
    · exact .raised _ _ rfl rfl
    · next c hc =>
      have := (calcDlc_le hc).2
      refine .fdBuilt a _ (by simp [writesFf]) rfl ?_ (by simp)
      simp [newFd]; omega
  | fflen a =>
    simp only [exec, execFflen] at h
    refine shape_withFd h rfl (.inl rfl) fun _ h => ?_
    obtain ⟨n, _, h⟩ := withFdLength_next h
    injection h with h; subst h; exact .answered _ rfl
  | ffdata a =>
    simp only [exec, execFfdata] at h
    refine shape_withFd h rfl (.inl rfl) fun _ h => ?_
    obtain ⟨n, hn, h⟩ := withFdLength_next h
    have := (dlcLen_le hn).2
    injection h with h; subst h
    exact .viewed _ _ rfl (by simp only [bufWritten, hn, view_length, Option.getD_some]; omega) (by simp)
  | ffwr a =>
    simp only [exec, execFfwr] at h
    refine shape_withFd h rfl (.inl rfl) fun hv h => ?_
    obtain ⟨n, hn, h⟩ := withFdLength_next h
    injection h with h; subst h
    exact .fdBuilt a _ (by simp [writesFf]) hv (dlcLen_le hn).1 (fun _ => rfl)
  | ffeq a b =>
    simp only [exec, execFfeq] at h
    refine shape_withFd h rfl (.inl rfl) fun _ h => ?_
    refine shape_withFd h rfl (.inr ⟨rfl, a, b, .inr rfl⟩) fun _ h => ?_
    split at h
    · obtain ⟨_, _, h⟩ := withFdLength_next h
      injection h with h; subst h; exact .answered _ rfl
    · injection h with h; subst h; exact .answered _ rfl
  | ffld a =>
    injection h with h; subst h
    split
    · exact .raised _ _ rfl rfl
    · next hn => exact .fdBuilt a _ (by simp [writesFf]) rfl (by simpa [loadedFd] using hn) (by simp)
  | ffst a =>
    simp only [exec, execFfst] at h
    refine shape_withFd h rfl (.inl rfl) fun _ h => ?_
    injection h with h; subst h
    exact .stored _ (by simp [bufWritten]) (by simp)
  | dlcenc | dlcdec =>
    injection h with h; subst h
    split
    · exact .raised _ _ rfl rfl
    · exact .answered _ rfl
  | btnew =>
    injection h with h; subst h
    split
    · next k hk =>
      have : k < 4 := firstOutOfBounds_lt hk
      refine .raised _ _ rfl ⟨?_, fun _ => ?_⟩ <;> simp <;> omega
    · next hk => exact .classicTimed _ rfl (lowQuad_inClassic hk)
  | fbtnew =>
    injection h with h; subst h
    split
    · next k hk =>
      have : k < 8 := firstOutOfBounds_lt hk
      refine .raised _ _ rfl ⟨?_, by simp⟩; simp; omega
    · next hk => exact .fdTimed _ _ rfl ((fdBounds_none_iff _ _).mp hk).1 ((fdBounds_none_iff _ _).mp hk).2
  | btenc =>
    simp only [exec, execBtenc] at h
    split at h
    · split at h
      · injection h with h; subst h; exact .answered _ rfl
      · cases h
    · injection h with h; subst h; exact .raised _ _ rfl (.inl rfl)
  | fbtenc =>
    simp only [exec, execFbtenc] at h
    split at h
    · split at h
      · next hr =>
        have := descriptor_length_le hr
        injection h with h; subst h
        exact .viewed _ _ rfl (by simp [bufWritten]) (by simp; omega)
      · cases h
    · injection h with h; subst h; exact .raised _ _ rfl (.inl rfl)

/-- No command is refused. -/
theorem exec_not_refused (i : Instr) (s : State) (r : Refusal) : exec i s ≠ .refused r := by
  cases i <;> simp only [exec, execNop, execCfnew, execCfid, execCfstd, execCfext, execCflen, execCfdata, execCfwr, execCfeq,
    execCfld, execCfst, execFfnew, execFfid, execFfstd, execFfext, execFflen, execFfdata, execFfwr, execFfeq, execFfld, execFfst,
    execFfdlc, execFffd, execFfbrs, execDlcenc, execDlcdec, execBtnew, execBtenc, execFbtnew, execFbtenc, readClassic, readFd,
    withClassic, withFd, withClassicLength, withFdLength] <;> repeat' split
  all_goals simp

end Sys2Proof.Machine
end

