-- ==== Sys2Proof/Laws/Bus.lean ====
section
/-! SUPPORT. The address map read both ways, what each host event comes to, and what a step can do (one inversion lemma). -/

namespace Sys2Proof.Machine

theorem offset_eq {off : BitVec 8} {n : Nat} (h : off.toNat = n) : off = BitVec.ofNat 8 n := by
  subst h; simp

/-- R52: the operand register at 0x20 + 4·i. -/
theorem operandAt_eq {off : BitVec 8} {i : Fin 8} (h : off.toNat = 0x20 + 4 * i.val) : operandAt off = some i := by
  have hi := i.isLt
  simp only [operandAt, h]
  rw [if_pos (by omega)]
  congr 1
  apply Fin.ext
  simp

/-- R52: no operand register anywhere else. -/
theorem operandAt_none {off : BitVec 8} (h : ∀ i : Fin 8, off.toNat ≠ 0x20 + 4 * i.val) : operandAt off = none := by
  simp only [operandAt]
  split
  · next hc => exact absurd (by simp; omega) (h ⟨(off.toNat - 0x20) / 4, by omega⟩)
  · rfl

/-- R52: the byte of BUF at 0x80 + j. -/
theorem bufferAt_eq {off : BitVec 8} {j : Nat} (h : off.toNat = 0x80 + j) : bufferAt off = some j := by
  simp [bufferAt, h]

theorem bufferAt_lt {off : BitVec 8} {j : Nat} (h : bufferAt off = some j) : j < 128 := by
  have := off.isLt
  simp only [bufferAt] at h
  split at h <;> simp at h
  omega

theorem not_cmd_of_operand {off : BitVec 8} {i : Fin 8} (h : off.toNat = 0x20 + 4 * i.val) :
    off ≠ cmdOffset ∧ off ≠ statusOffset := by
  constructor <;> rintro rfl <;> simp [cmdOffset, statusOffset] at h <;> omega

/-- A 32-bit write to CMD is a command on the state without that access. -/
theorem fetch_command {s : State} {w : Word} {rest : List HostEvent} (h : s.script = commandEvent w :: rest) :
    fetch s = .command w { s with script := rest } := by
  simp [fetch, h, hostEvent, commandEvent, write32]

/-- The shapes of what a host event that is not a command leaves. -/
inductive HostShape (s : State) : State → Prop
  | same : HostShape s s
  | replied (a : Answer) : HostShape s (s.replied a)
  | stored (i : Fin 8) (v : Word) : HostShape s (s.setX i v)
  | byteStored (j : Nat) (v : Byte) (h : j < 128) : HostShape s (s.setBufByte j v)

theorem hostEvent_done {s t : State} {e : HostEvent} (h : hostEvent s e = .done t) :
    HostShape s t ∨ (e = .reset ∧ t = s.assertReset) := by
  cases e with
  | read8 off =>
    simp only [hostEvent, read8] at h
    split at h <;> cases h
    exact .inl (.replied _)
  | write8 off v =>
    simp only [hostEvent, write8] at h
    split at h <;> cases h
    next hj => exact .inl (.byteStored _ _ (bufferAt_lt hj))
  | read16 off => cases h
  | write16 off v => cases h
  | read32 off =>
    simp only [hostEvent, read32] at h
    repeat' split at h
    all_goals cases h
    all_goals exact .inl (.replied _)
  | write32 off v =>
    simp only [hostEvent, write32] at h
    repeat' split at h
    all_goals cases h
    · exact .inl .same
    · exact .inl (.stored _ _)
  | reset => cases h; exact .inr ⟨rfl, rfl⟩

theorem hostEvent_command {s t : State} {e : HostEvent} {w : Word} (h : hostEvent s e = .command w t) : t = s := by
  cases e with
  | read8 off => simp only [hostEvent, read8] at h; split at h <;> cases h
  | write8 off v => simp only [hostEvent, write8] at h; split at h <;> cases h
  | read16 off => cases h
  | write16 off v => cases h
  | read32 off =>
    simp only [hostEvent, read32] at h
    repeat' split at h
    all_goals cases h
  | write32 off v =>
    simp only [hostEvent, write32] at h
    repeat' split at h
    all_goals cases h
    rfl
  | reset => cases h

/-- If a step answers a next state: no access was pending and nothing changed; or the reset input was asserted; or the host's
access read or stored; or a word was written to CMD, and its command answered, or it was no command. -/
theorem step_next {s t : State} (h : step s = .next t) :
    (s.script = [] ∧ t = s) ∨
    ∃ e rest, s.script = e :: rest ∧
      ((e = .reset ∧ t = State.assertReset { s with script := rest }) ∨ HostShape { s with script := rest } t ∨
        (∃ i, exec i { s with script := rest } = .next t) ∨ t = State.illegalCommand { s with script := rest }) := by
  cases hs : s.script with
  | nil =>
    have hf : fetch s = .done s := by simp [fetch, hs]
    simp only [step, hf] at h
    cases h; exact .inl ⟨rfl, rfl⟩
  | cons e rest =>
    refine .inr ⟨e, rest, rfl, ?_⟩
    have hf : fetch s = hostEvent { s with script := rest } e := by simp [fetch, hs]
    rw [step, hf] at h
    cases he : hostEvent { s with script := rest } e with
    | done u =>
      rw [he] at h; cases h
      rcases hostEvent_done he with h | ⟨rfl, rfl⟩
      · exact .inr (.inl h)
      · exact .inl ⟨rfl, rfl⟩
    | illegal e' => rw [he] at h; cases h
    | command w u =>
      rw [he, hostEvent_command he] at h
      simp only at h
      split at h
      · exact .inr (.inr (.inl ⟨_, h⟩))
      · cases h; exact .inr (.inr (.inr rfl))

end Sys2Proof.Machine
end

