-- ==== Sys2Proof/Laws/PerInstr.lean ====
section
/-! SUPPORT. One lemma per command for the family Encoding: the command as syntax is well formed and the decoder reads it back from
its field record (spec/30_encoding.md R71, R73). -/

namespace Sys2Proof.Laws.Encoding

/-- R71, R73: the command's field record is well formed for its format and decodes to the command. -/
def Statement (i : Instr) : Prop := i.wellFormed = true ∧ decodeFields i.fields = .ok i

theorem nop : Statement .nop := by
  exact ⟨rfl, rfl⟩

theorem cfnew (a : Slot) (mode : Mode) : Statement (.cfnew a mode) := by
  fin_cases a <;> cases mode <;> exact ⟨rfl, rfl⟩

theorem cfid (a : Slot) : Statement (.cfid a) := by
  fin_cases a <;> exact ⟨rfl, rfl⟩

theorem cfstd (a : Slot) : Statement (.cfstd a) := by
  fin_cases a <;> exact ⟨rfl, rfl⟩

theorem cfext (a : Slot) : Statement (.cfext a) := by
  fin_cases a <;> exact ⟨rfl, rfl⟩

theorem cflen (a : Slot) : Statement (.cflen a) := by
  fin_cases a <;> exact ⟨rfl, rfl⟩

theorem cfdata (a : Slot) : Statement (.cfdata a) := by
  fin_cases a <;> exact ⟨rfl, rfl⟩

theorem cfwr (a : Slot) : Statement (.cfwr a) := by
  fin_cases a <;> exact ⟨rfl, rfl⟩

theorem cfeq (a b : Slot) : Statement (.cfeq a b) := by
  fin_cases a <;> fin_cases b <;> exact ⟨rfl, rfl⟩

theorem cfld (a : Slot) : Statement (.cfld a) := by
  fin_cases a <;> exact ⟨rfl, rfl⟩

theorem cfst (a : Slot) : Statement (.cfst a) := by
  fin_cases a <;> exact ⟨rfl, rfl⟩

theorem ffnew (a : Slot) (mode : Mode) (fd brs : Bool) : Statement (.ffnew a mode fd brs) := by
  fin_cases a <;> cases mode <;> cases fd <;> cases brs <;> exact ⟨rfl, rfl⟩

theorem ffid (a : Slot) : Statement (.ffid a) := by
  fin_cases a <;> exact ⟨rfl, rfl⟩

theorem ffstd (a : Slot) : Statement (.ffstd a) := by
  fin_cases a <;> exact ⟨rfl, rfl⟩

theorem ffext (a : Slot) : Statement (.ffext a) := by
  fin_cases a <;> exact ⟨rfl, rfl⟩

theorem fflen (a : Slot) : Statement (.fflen a) := by
  fin_cases a <;> exact ⟨rfl, rfl⟩

theorem ffdata (a : Slot) : Statement (.ffdata a) := by
  fin_cases a <;> exact ⟨rfl, rfl⟩

theorem ffwr (a : Slot) : Statement (.ffwr a) := by
  fin_cases a <;> exact ⟨rfl, rfl⟩

theorem ffeq (a b : Slot) : Statement (.ffeq a b) := by
  fin_cases a <;> fin_cases b <;> exact ⟨rfl, rfl⟩

theorem ffld (a : Slot) : Statement (.ffld a) := by
  fin_cases a <;> exact ⟨rfl, rfl⟩

theorem ffst (a : Slot) : Statement (.ffst a) := by
  fin_cases a <;> exact ⟨rfl, rfl⟩

theorem ffdlc (a : Slot) : Statement (.ffdlc a) := by
  fin_cases a <;> exact ⟨rfl, rfl⟩

theorem fffd (a : Slot) : Statement (.fffd a) := by
  fin_cases a <;> exact ⟨rfl, rfl⟩

theorem ffbrs (a : Slot) : Statement (.ffbrs a) := by
  fin_cases a <;> exact ⟨rfl, rfl⟩

theorem dlcenc : Statement .dlcenc := by
  exact ⟨rfl, rfl⟩

theorem dlcdec : Statement .dlcdec := by
  exact ⟨rfl, rfl⟩

theorem btnew : Statement .btnew := by
  exact ⟨rfl, rfl⟩

theorem btenc : Statement .btenc := by
  exact ⟨rfl, rfl⟩

theorem fbtnew : Statement .fbtnew := by
  exact ⟨rfl, rfl⟩

theorem fbtenc : Statement .fbtenc := by
  exact ⟨rfl, rfl⟩

end Sys2Proof.Laws.Encoding
end

