-- ==== Sys2Proof/Tests/Slice0.lean ====
section
/-! SUPPORT. The model's own tests. Expected values come from spec/95_test_vectors.md (the vector is named in each comment) or from
the rule named; none comes from running the model. The last part shows, for every statement that has hypotheses, a state and
operands that meet them. -/

namespace Sys2Proof.Tests

open Sys2Proof Sys2Proof.Machine

/-! ### WellFormed: an ill-formed term for each check -/

/-- R70, R71: a reserved bit is set. -/
theorem test_wf_reserved : Fields.wellFormed { opFields 0x10 with reserved := 1 } .am = false := by decide

/-- R71, R72: format N frees no field. -/
theorem test_wf_format_n : Fields.wellFormed { opFields 0x00 with a := true } .n = false ∧
    Fields.wellFormed { opFields 0x00 with ext := true } .n = false := by decide

/-- R71, R72: format A frees only `a`. -/
theorem test_wf_format_a : Fields.wellFormed { slotFields 0x11 1 with b := true } .a = false ∧
    Fields.wellFormed { slotFields 0x11 1 with brs := true } .a = false := by decide

/-- R71, R72: format AB frees `a` and `b`. -/
theorem test_wf_format_ab : Fields.wellFormed { slotFields 0x17 1 with ext := true } .ab = false ∧
    Fields.wellFormed { slotFields 0x17 1 with fd := true } .ab = false := by decide

/-- R71, R72: format AM frees `a` and `ext`. -/
theorem test_wf_format_am : Fields.wellFormed { slotFields 0x10 0 with fd := true } .am = false ∧
    Fields.wellFormed { slotFields 0x10 0 with b := true } .am = false := by decide

/-- R71, R72: format AMF frees all but `b`. -/
theorem test_wf_format_amf : Fields.wellFormed { slotFields 0x20 0 with b := true } .amf = false := by decide

/-- R8: a mask without a bit, a mask with two bits, and each pair of equal masks. -/
theorem test_wf_masks : FlagMasks.wellFormed { ext := 0, fd := 4, brs := 8 } = false ∧
    FlagMasks.wellFormed { ext := 2, fd := 5, brs := 8 } = false ∧
    FlagMasks.wellFormed { ext := 2, fd := 4, brs := 0xFF } = false ∧
    FlagMasks.wellFormed { ext := 2, fd := 2, brs := 8 } = false ∧
    FlagMasks.wellFormed { ext := 2, fd := 4, brs := 2 } = false ∧
    FlagMasks.wellFormed { ext := 2, fd := 4, brs := 4 } = false ∧
    FlagMasks.wellFormed { ext := 0x80, fd := 0x01, brs := 0x40 } = true := by decide

/-! ### Decoding: every constructor's word, bit by bit as R70 and R73 give it
(reserved 31:13, then brs, fd, ext, b, a, then the opcode) -/

theorem test_decode_misc_dlc_timing :
    decode 0b0000000000000000000_00000_00000000 = .ok .nop ∧
    decode 0b0000000000000000000_00000_00110000 = .ok .dlcenc ∧
    decode 0b0000000000000000000_00000_00110001 = .ok .dlcdec ∧
    decode 0b0000000000000000000_00000_01000000 = .ok .btnew ∧
    decode 0b0000000000000000000_00000_01000001 = .ok .btenc ∧
    decode 0b0000000000000000000_00000_01001000 = .ok .fbtnew ∧
    decode 0b0000000000000000000_00000_01001001 = .ok .fbtenc := by decide

theorem test_decode_classic :
    decode 0b0000000000000000000_00101_00010000 = .ok (.cfnew 1 .extended) ∧
    decode 0b0000000000000000000_00001_00010001 = .ok (.cfid 1) ∧
    decode 0b0000000000000000000_00000_00010010 = .ok (.cfstd 0) ∧
    decode 0b0000000000000000000_00001_00010011 = .ok (.cfext 1) ∧
    decode 0b0000000000000000000_00000_00010100 = .ok (.cflen 0) ∧
    decode 0b0000000000000000000_00001_00010101 = .ok (.cfdata 1) ∧
    decode 0b0000000000000000000_00000_00010110 = .ok (.cfwr 0) ∧
    decode 0b0000000000000000000_00010_00010111 = .ok (.cfeq 0 1) ∧
    decode 0b0000000000000000000_00001_00010111 = .ok (.cfeq 1 0) := by decide

theorem test_decode_fd :
    decode 0b0000000000000000000_11000_00100000 = .ok (.ffnew 0 .standard true true) ∧
    decode 0b0000000000000000000_01101_00100000 = .ok (.ffnew 1 .extended true false) ∧
    decode 0b0000000000000000000_10000_00100000 = .ok (.ffnew 0 .standard false true) ∧
    decode 0b0000000000000000000_00001_00100001 = .ok (.ffid 1) ∧
    decode 0b0000000000000000000_00000_00100010 = .ok (.ffstd 0) ∧
    decode 0b0000000000000000000_00001_00100011 = .ok (.ffext 1) ∧
    decode 0b0000000000000000000_00000_00100100 = .ok (.fflen 0) ∧
    decode 0b0000000000000000000_00001_00100101 = .ok (.ffdata 1) ∧
    decode 0b0000000000000000000_00000_00100110 = .ok (.ffwr 0) ∧
    decode 0b0000000000000000000_00010_00100111 = .ok (.ffeq 0 1) ∧
    decode 0b0000000000000000000_00001_00101010 = .ok (.ffdlc 1) ∧
    decode 0b0000000000000000000_00000_00101011 = .ok (.fffd 0) ∧
    decode 0b0000000000000000000_00001_00101100 = .ok (.ffbrs 1) := by decide

theorem test_decode_wire :
    decode 0b0000000000000000000_00001_00011000 = .ok (.cfld 1) ∧
    decode 0b0000000000000000000_00000_00011001 = .ok (.cfst 0) ∧
    decode 0b0000000000000000000_00001_00101000 = .ok (.ffld 1) ∧
    decode 0b0000000000000000000_00000_00101001 = .ok (.ffst 0) := by decide

/-- V4: the illegal words of the table, each by its reason. -/
theorem test_decode_illegal :
    [0x00000001, 0x0000001A, 0x0000002D, 0x00000042, 0x000000FF, 0xFFFFFFFF].map decode =
      List.replicate 6 (.error .unassignedOpcode) ∧
    [0x00000100, 0x00000400, 0x00000130, 0x00000211, 0x00000910, 0x00000A10, 0x00001E20, 0x00000417].map decode =
      List.replicate 8 (.error .unusedField) ∧
    [0x00002010, 0x80000000, 0x00010049].map decode = List.replicate 3 (.error .reservedBit) := by decide

/-- V4, R78: words of the encoder. -/
theorem test_encode : encode (.cfnew 1 .extended) = 0x00000510 ∧ encode (.cfeq 0 1) = 0x00000217 ∧
    encode (.ffnew 1 .extended true true) = 0x00001D20 ∧ encode .fbtenc = 0x00000049 := by decide

/-! ### One step on a small state -/

/-- The value `f` of the next state of a result, if it has one. -/
def after {α : Type} (r : Result) (f : State → α) : Option α :=
  match r with
  | .next t => some (f t)
  | _ => none

/-- The host writes the word to CMD. -/
def cmd (s : State) (w : Word) : Result := step { s with script := [commandEvent w] }

/-- The host makes one access. -/
def access (s : State) (e : HostEvent) : Result := step { s with script := [e] }

/-- `n` bytes of BUF from index `j`. -/
def bytes (j n : Nat) (s : State) : List Byte := (List.range n).map fun k => s.bufByte (j + k)

/-- The block after reset with these first operand registers and these bytes at the start of BUF. -/
def start (x0 x1 x2 x3 : Word) (bs : List Byte := []) : State :=
  { State.reset with x := #v[x0, x1, x2, x3, 1, 1, 1, 1] }.writeBuf 0 bs

/-- A payload array that begins with these bytes and is `fill` after them. -/
def data (cap : Nat) (bs : List Byte) (fill : Byte) : Vector Byte cap := Vector.ofFn fun i => bs.getD i.val fill

/-- The bytes 01 to 0A. -/
def ten : List Byte := [1, 2, 3, 4, 5, 6, 7, 8, 9, 10]

/-- A state with all six valid bits set: V6's CF[0], V8's CF[1], V10's FF[0], V11's FF[1] (a longer image), S5's BT, S7's FBT;
BUF begins with 09 08 07 06, X0 = 0xAA. -/
def sample : State :=
  { start 0xAA 1 2 3 [9, 8, 7, 6] with
    cf  := #v[{ id := 0x12345678, flags := 0x02, len := 3, data := data 8 [1, 2, 3] 0, v := true },
              { id := 0x12345678, flags := 0x00, len := 3, data := data 8 [1, 2, 3] 0xFF, v := true }]
    ff  := #v[{ id := 0x123, flags := 0x0C, dlc := 9, data := data 64 ten 0, v := true },
              { id := 0x123, flags := 0x0C, dlc := 9, data := data 64 (ten ++ [0, 0]) 0xAA, v := true }]
    bt  := { q := { prescaler := 8, sjw := 1, tseg1 := 13, tseg2 := 2 }, v := true }
    fbt := { nom := { prescaler := 10, sjw := 4, tseg1 := 13, tseg2 := 2 },
             data := { prescaler := 5, sjw := 2, tseg1 := 6, tseg2 := 1 }, v := true } }

/-- The boundaries of the valid registers: classic lengths 8 and 0, FD codes 15 and 0, every timing field at its maximum. -/
def bounds : State :=
  { sample with
    cf  := #v[{ id := 0, flags := 0xFD, len := 8, data := data 8 [] 0x11, v := true },
              { id := 0xFFFFFFFF, flags := 0xFF, len := 0, data := data 8 [] 0x22, v := true }]
    ff  := #v[{ id := 0, flags := 0xFF, dlc := 15, data := data 64 [] 0x33, v := true },
              { id := 0xFFFFFFFF, flags := 0x00, dlc := 0, data := data 64 [] 0x44, v := true }]
    bt  := { q := { prescaler := 64, sjw := 4, tseg1 := 16, tseg2 := 8 }, v := true }
    fbt := { nom := { prescaler := 1024, sjw := 128, tseg1 := 256, tseg2 := 128 },
             data := { prescaler := 1024, sjw := 16, tseg1 := 32, tseg2 := 16 }, v := true } }

/-- `sample` with CF[1] not valid, and with FF[1] not valid. -/
def oneClassic : State := { sample with cf := sample.cf.set 1 ClassicFrame.reset }
def oneFd : State := { sample with ff := sample.ff.set 1 FdFrame.reset }

/-! #### The host's accesses and reset -/

/-- V19: reads of CMD, STATUS and X7 on a fresh block. -/
theorem test_read_fresh : after (access State.reset (.read32 0x00)) State.answers = some [.word 0] ∧
    after (access State.reset (.read32 0x04)) State.answers = some [.word 0] ∧
    after (access State.reset (.read32 0x3C)) State.answers = some [.word 0] := by decide

/-- V17: STATUS with all six valid bits and err 1 is 0x00003F01, and a write to it is ignored. -/
theorem test_status : State.status { sample with err := 1 } = 0x00003F01 ∧
    after (access { sample with err := 1 } (.write32 0x04 0xFFFFFFFF)) State.status = some 0x00003F01 := by decide

/-- V19: 0xDEADBEEF written to X7, 5A written to BUF[127]. -/
theorem test_write_edges : after (access State.reset (.write32 0x3C 0xDEADBEEF)) (fun t => t.x[7]) = some 0xDEADBEEF ∧
    after (access State.reset (.write8 0xFF 0x5A)) (fun t => t.bufByte 127) = some 0x5A := by decide

/-- V19: the illegal accesses. -/
theorem test_illegal_access : access State.reset (.read8 0x20) = .refused (.busError (.read8 0x20)) ∧
    access State.reset (.write32 0x80 1) = .refused (.busError (.write32 0x80 1)) ∧
    access State.reset (.read32 0x08) = .refused (.busError (.read32 0x08)) ∧
    access State.reset (.write32 0x40 0) = .refused (.busError (.write32 0x40 0)) ∧
    access State.reset (.read32 0x22) = .refused (.busError (.read32 0x22)) ∧
    access State.reset (.write16 0x80 0) = .refused (.busError (.write16 0x80 0)) := ⟨rfl, rfl, rfl, rfl, rfl, rfl⟩

/-- R231: the reset input clears every register and valid bit. -/
theorem test_reset_input : after (access bounds .reset) (fun t => (t.x, t.status)) = some (Vector.replicate 8 0, 0) := by decide

/-- V4: 0x00000042 is no command: STATUS[7:0] = 0x08. -/
theorem test_illegal_word : after (cmd State.reset 0x00000042) State.status = some 0x00000008 := by decide

/-! #### NOP -/

/-- V17: NOP clears the error of the command before it. -/
theorem test_nop : after (cmd { State.reset with err := 2, einfo := 3 } 0x00000000) State.status = some 0 := by decide

/-! #### Classic frames -/

/-- V5, row 6. -/
theorem test_cfnew : after (cmd (start 0x12345678 0 3 0 [0x11, 0x22, 0x33, 0x44]) 0x00000510) (fun t => (t.status, t.cf[1])) =
    some (0x00000200, { id := 0x12345678, flags := 0x02, len := 3, data := data 8 [0x11, 0x22, 0x33] 0, v := true }) := by decide

/-- V5, last row: all 32 bits of X2 are compared. -/
theorem test_cfnew_too_large : after (cmd (start 5 0 0x00000100 0) 0x00000510) State.status = some 0x00000001 := by decide

/-- V6, V8: CFID masks by the stored flag. -/
theorem test_cfid : after (cmd sample 0x00000011) (fun t => t.x[0]) = some 0x12345678 ∧
    after (cmd sample 0x00000111) (fun t => t.x[0]) = some 0x00000678 := by decide

/-- V6: CFSTD on the extended frame; V7 row 2's flag byte 0x80 is Standard. -/
theorem test_cfstd : after (cmd sample 0x00000012) (fun t => t.x[0]) = some 0 ∧
    after (cmd sample 0x00000112) (fun t => t.x[0]) = some 1 := by decide

/-- V6: CFEXT. -/
theorem test_cfext : after (cmd sample 0x00000013) (fun t => t.x[0]) = some 1 ∧
    after (cmd sample 0x00000113) (fun t => t.x[0]) = some 0 := by decide

/-- V6: CFLEN; V18: on a fresh block it raises InvalidSource(0). -/
theorem test_cflen : after (cmd sample 0x00000014) (fun t => t.x[0]) = some 3 ∧
    after (cmd State.reset 0x00000014) State.status = some 0x00000009 := by decide

/-- V6: CFDATA copies three bytes; the fourth stays. -/
theorem test_cfdata : after (cmd sample 0x00000015) (fun t => (t.x[0], bytes 0 4 t)) = some (3, [1, 2, 3, 6]) := by decide

/-- V6: CFWR takes three bytes, not the fourth. -/
theorem test_cfwr : after (cmd sample 0x00000016) (fun t => t.cf[0].data) = some (data 8 [9, 8, 7] 0) := by decide

/-- V7 rows 1, 4 and 2: bytes beyond the length are not compared; a payload byte differs; a flags bit differs. -/
theorem test_cfeq :
    let c : ClassicFrame := { id := 0x100, flags := 0, len := 3, data := data 8 [1, 2, 3] 0, v := true }
    after (cmd { sample with cf := #v[c, { c with data := data 8 [1, 2, 3] 0xFF }] } 0x00000217) (fun t => t.x[0]) = some 1 ∧
    after (cmd { sample with cf := #v[c, { c with data := data 8 [1, 2, 4] 0 }] } 0x00000217) (fun t => t.x[0]) = some 0 ∧
    after (cmd { sample with cf := #v[c, { c with flags := 0x80 }] } 0x00000217) (fun t => t.x[0]) = some 0 := by decide

/-- V7: which slot is reported when one or both are not valid. -/
theorem test_cfeq_invalid :
    after (cmd oneClassic 0x00000217) (fun t => (t.err, t.einfo)) = some (9, 1) ∧
    after (cmd oneClassic 0x00000117) (fun t => (t.err, t.einfo)) = some (9, 0) ∧
    after (cmd State.reset 0x00000217) (fun t => (t.err, t.einfo)) = some (9, 0) := by decide

/-! #### FD frames -/

/-- P2: ten bytes give code 9 and the flags 0C. -/
theorem test_ffnew : after (cmd (start 0x123 0 10 0 ten) 0x00001820) (fun t => (t.status, t.ff[0])) =
    some (0x00000400, { id := 0x123, flags := 0x0C, dlc := 9, data := data 64 ten 0, v := true }) := by decide

/-- V9: 65 bytes are too many; 64 are not, and `brs` without `fd` is no error (R133). -/
theorem test_ffnew_capacity : after (cmd (start 0 0 65 0) 0x00000C20) State.status = some 0x00000001 ∧
    after (cmd (start 0 0 64 0) 0x00001020) (fun t => (t.status, t.ff[0].dlc, t.ff[0].flags)) =
      some (0x00000400, 15, 0x08) := by decide

/-- V10, V11: FFID. -/
theorem test_ffid : after (cmd sample 0x00000021) (fun t => t.x[0]) = some 0x123 ∧
    after (cmd { sample with ff := sample.ff.set 1 { sample.ff[1] with id := 0x923 } } 0x00000121) (fun t => t.x[0]) =
      some 0x123 := by decide

/-- V10: FFSTD. -/
theorem test_ffstd : after (cmd sample 0x00000022) (fun t => t.x[0]) = some 1 := by decide

/-- V10: FFEXT. -/
theorem test_ffext : after (cmd sample 0x00000023) (fun t => t.x[0]) = some 0 := by decide

/-- V10: FFLEN of code 9 is 12; V12: of code 15 it is 64. -/
theorem test_fflen : after (cmd sample 0x00000024) (fun t => t.x[0]) = some 12 ∧
    after (cmd bounds 0x00000024) (fun t => t.x[0]) = some 64 := by decide

/-- V10: FFDATA copies the ten bytes and two of padding. -/
theorem test_ffdata : after (cmd sample 0x00000025) (fun t => (t.x[0], bytes 0 12 t)) = some (12, ten ++ [0, 0]) := by decide

/-- V10: FFWR takes twelve bytes, the padding positions included. -/
theorem test_ffwr : after (cmd (sample.writeBuf 0 (List.replicate 16 0xFF)) 0x00000026) (fun t => t.ff[0].data) =
    some (data 64 (List.replicate 12 0xFF) 0) := by decide

/-- V11 rows 8 and 2: bytes beyond the view are not compared, padding inside it is. -/
theorem test_ffeq : after (cmd sample 0x00000227) (fun t => t.x[0]) = some 1 ∧
    after (cmd { sample with ff := sample.ff.set 1 { sample.ff[1] with data := data 64 (ten ++ [0, 1]) 0 } } 0x00000227)
      (fun t => t.x[0]) = some 0 := by decide

/-- V10: FFDLC. -/
theorem test_ffdlc : after (cmd sample 0x0000002A) (fun t => t.x[0]) = some 9 := by decide

/-- V9, V10: FFFD on flags 0C and on 08 (`brs` without `fd`). -/
theorem test_fffd : after (cmd sample 0x0000002B) (fun t => t.x[0]) = some 1 ∧
    after (cmd { sample with ff := sample.ff.set 0 { sample.ff[0] with flags := 0x08 } } 0x0000002B) (fun t => t.x[0]) =
      some 0 := by decide

/-- V9, V10: FFBRS on flags 0C and on 06. -/
theorem test_ffbrs : after (cmd sample 0x0000002C) (fun t => t.x[0]) = some 1 ∧
    after (cmd { sample with ff := sample.ff.set 0 { sample.ff[0] with flags := 0x06 } } 0x0000002C) (fun t => t.x[0]) =
      some 0 := by decide

/-! #### Wire images -/

/-- V8, first row. -/
theorem test_cfld : after (cmd (start 0 0 0 0 [0x78, 0x56, 0x34, 0x12, 0, 3, 1, 2, 3, 0xFF, 0xFF, 0xFF, 0xFF, 0xFF]) 0x00000118)
    (fun t => (t.status, t.cf[1])) =
    some (0x00000200, { id := 0x12345678, flags := 0, len := 3, data := data 8 [1, 2, 3] 0xFF, v := true }) := by decide

/-- V8: a length byte 09 is refused and the slot stays. -/
theorem test_cfld_length : after (cmd (sample.setBufByte 5 9) 0x00000118) (fun t => (t.err, t.cf[1])) =
    some ((10 : BitVec 4), sample.cf[1]) := by decide

/-- P1: the image of an extended frame. -/
theorem test_cfst : after (cmd sample 0x00000019) (bytes 0 14) =
    some [0x78, 0x56, 0x34, 0x12, 2, 3, 1, 2, 3, 0, 0, 0, 0, 0] := by decide

/-- V12, second row. -/
theorem test_ffld : after (cmd (start 0 0 0 0 ([0x23, 1, 0, 0, 0x0C, 9] ++ ten ++ [0, 0] ++ List.replicate 52 0xAA)) 0x00000128)
    (fun t => (t.status, t.ff[1])) = some ((0x00000800 : Word), sample.ff[1]) := by decide

/-- V12: the dlc byte 10h is refused, 0Fh is not. -/
theorem test_ffld_code : after (cmd ((start 0 0 0 0 (List.replicate 70 0)).setBufByte 5 0x10) 0x00000028) State.status =
      some 0x0000000A ∧
    after (cmd ((start 0 0 0 0 (List.replicate 70 0)).setBufByte 5 0x0F) 0x00000028) (fun t => t.ff[0].dlc) = some 15 := by decide

/-- V12, first row. -/
theorem test_ffst : after (cmd sample 0x00000029) (bytes 0 70) =
    some ([0x23, 1, 0, 0, 0x0C, 9] ++ ten ++ List.replicate 54 0) := by decide

/-! #### The DLC map -/

/-- V2: rows 10, 13, 48 and 49. -/
theorem test_dlcenc : after (cmd (start 10 0 0 0) 0x00000030) (fun t => t.x[0]) = some 9 ∧
    after (cmd (start 13 0 0 0) 0x00000030) (fun t => t.x[0]) = some 10 ∧
    after (cmd (start 48 0 0 0) 0x00000030) (fun t => t.x[0]) = some 14 ∧
    after (cmd (start 49 0 0 0) 0x00000030) (fun t => t.x[0]) = some 15 := by decide

/-- V2: rows 65 and 0x00000100. -/
theorem test_dlcenc_too_large : after (cmd (start 65 0 0 0) 0x00000030) (fun t => (t.x[0], t.status)) = some (65, 0x01) ∧
    after (cmd (start 0x100 0 0 0) 0x00000030) (fun t => (t.x[0], t.status)) = some (0x100, 0x01) := by decide

/-- V3: rows 9, 12 and 15. -/
theorem test_dlcdec : after (cmd (start 9 0 0 0) 0x00000031) (fun t => t.x[0]) = some 12 ∧
    after (cmd (start 12 0 0 0) 0x00000031) (fun t => t.x[0]) = some 24 ∧
    after (cmd (start 15 0 0 0) 0x00000031) (fun t => t.x[0]) = some 64 := by decide

/-- V3: rows 16 and 0xFFFFFFFF. -/
theorem test_dlcdec_invalid : after (cmd (start 16 0 0 0) 0x00000031) (fun t => (t.x[0], t.status)) = some (16, 0x0A) ∧
    after (cmd (start 0xFFFFFFFF 0 0 0) 0x00000031) State.status = some 0x0A := by decide

/-! #### Bit timing -/

/-- V13: all maxima. -/
theorem test_btnew : after (cmd (start 64 4 16 8) 0x00000040) (fun t => (t.status, t.bt.q)) =
    some (0x00001000, { prescaler := 64, sjw := 4, tseg1 := 16, tseg2 := 8 }) := by decide

/-- V13: the first of three violations is reported; the comparison is unsigned. -/
theorem test_btnew_bounds : after (cmd (start 64 5 17 9) 0x00000040) State.status = some 0x00000012 ∧
    after (cmd (start 1 1 1 0) 0x00000040) State.status = some 0x00000032 ∧
    after (cmd (start 0xFFFFFFFF 1 1 1) 0x00000040) State.status = some 0x00000002 := by decide

/-- S5, S6. -/
theorem test_btenc : after (cmd sample 0x00000041) (fun t => t.x[0]) = some 0x0000071C ∧
    after (cmd bounds 0x00000041) (fun t => t.x[0]) = some 0x0000FF7F := by decide

/-- V14's last row. -/
theorem test_btenc_fields : packTiming { prescaler := 16, sjw := 3, tseg1 := 8, tseg2 := 4 } = 0x8F37 := by decide

/-- S10, V15: X6 = 33 is the data tseg1 out of range; 256 is legal for the nominal one. -/
theorem test_fbtnew : after (cmd { State.reset with x := #v[1, 1, 256, 1, 1, 1, 32, 1] } 0x00000048) State.status =
      some 0x00002000 ∧
    after (cmd { State.reset with x := #v[1, 1, 256, 1, 1, 1, 33, 1] } 0x00000048) State.status = some 0x00000062 := by decide

/-- V15: the order of the registers, 17 is not a legal data sjw. -/
theorem test_fbtnew_order : after (cmd { State.reset with x := #v[10, 4, 13, 2, 5, 2, 33, 17] } 0x00000048) State.status =
      some 0x00000062 ∧
    after (cmd { State.reset with x := #v[1, 1, 1, 1, 1, 17, 1, 1] } 0x00000048) State.status = some 0x00000052 := by decide

/-- S7: the length and the first and last bytes, the NUL included. -/
theorem test_fbtenc : after (cmd sample 0x00000049) (fun t => (t.x[0], bytes 17 11 t, bytes 100 11 t)) =
    some (110, [0x6E, 0x6F, 0x6D, 0x5F, 0x62, 0x72, 0x70, 0x3D, 0x31, 0x30, 0x2C],
      [0x64, 0x61, 0x74, 0x61, 0x5F, 0x73, 0x6A, 0x77, 0x3D, 0x32, 0x00]) := by decide

/-- S7: the whole text. -/
theorem test_descriptor : descriptor sample.fbt = ascii ("f_clock=80000000,nom_brp=10,nom_tseg1=13,nom_tseg2=2,nom_sjw=4," ++
    "data_brp=5,data_tseg1=6,data_tseg2=1,data_sjw=2") := by decide

/-! ### Witnesses: for every statement with hypotheses, a state and operands that meet them, one for each clause -/

/-- `sample` and `bounds` meet the invariant. -/
theorem sample_inv : sample.Inv where
  buf := by decide
  masks := by decide
  classic := by unfold ClassicFrame.Ok; decide
  fd := by unfold FdFrame.Ok; decide
  bt := by unfold ClassicTiming.Ok Quad.InClassic within; decide
  fbt := by unfold FdTiming.Ok Quad.InNominal Quad.InData within; decide
  status := by unfold statusPair; decide

theorem bounds_inv : bounds.Inv where
  buf := by decide
  masks := by decide
  classic := by unfold ClassicFrame.Ok; decide
  fd := by unfold FdFrame.Ok; decide
  bt := by unfold ClassicTiming.Ok Quad.InClassic within; decide
  fbt := by unfold FdTiming.Ok Quad.InNominal Quad.InData within; decide
  status := by unfold statusPair; decide

/-- The host is about to do this to a state. -/
def about (s : State) (e : HostEvent) : State := { s with script := [e] }

theorem test_witness_EncodeOfDecode : decode 0x00001D20 = .ok (.ffnew 1 .extended true true) ∧
    decode 0x00000049 = .ok .fbtenc := by decide

theorem test_witness_CommandIffMaskMatch :
    (0x00000510 &&& (tableRow (.cfnew 0 .standard)).2 = (tableRow (.cfnew 0 .standard)).1) ∧
    ¬ (0x00000910 &&& (tableRow (.cfnew 0 .standard)).2 = (tableRow (.cfnew 0 .standard)).1) := by decide

theorem test_witness_UndecodableWordRaises :
    (about sample (commandEvent 0x0000001A)).script = commandEvent 0x0000001A :: [] ∧
    decode 0x0000001A = .error .unassignedOpcode ∧ decode 0x00000100 = .error .unusedField ∧
    decode 0x80000000 = .error .reservedBit := by decide

theorem test_witness_StepRunsDecodedCommand :
    (about sample (commandEvent 0x00000510)).script = commandEvent 0x00000510 :: [] ∧
    decode 0x00000510 = .ok (.cfnew 1 .extended) ∧ (Instr.cfnew 1 .extended).wellFormed = true := by decide

theorem test_witness_RegisterReadsAnswer :
    (about sample (.read32 0x3C)).script = .read32 0x3C :: [] ∧ (0x00 : BitVec 8).toNat = 0x00 ∧ (0x04 : BitVec 8).toNat = 0x04 ∧
    (0x20 : BitVec 8).toNat = 0x20 + 4 * (0 : Fin 8).val ∧ (0x3C : BitVec 8).toNat = 0x20 + 4 * (7 : Fin 8).val := by decide

theorem test_witness_RegisterWritesStore :
    (about sample (.write32 0x3C 5)).script = .write32 0x3C 5 :: [] ∧ (0x20 : BitVec 8).toNat = 0x20 + 4 * (0 : Fin 8).val ∧
    (0x3C : BitVec 8).toNat = 0x20 + 4 * (7 : Fin 8).val ∧
    (about sample (.write32 0x04 5)).script = .write32 0x04 5 :: [] ∧ (0x04 : BitVec 8).toNat = 0x04 := by decide

theorem test_witness_BufferReadsAndWrites :
    (about sample (.read8 0x80)).script = .read8 0x80 :: [] ∧ (0x80 : BitVec 8).toNat = 0x80 + 0 ∧
    (about sample (.write8 0xFF 1)).script = .write8 0xFF 1 :: [] ∧ (0xFF : BitVec 8).toNat = 0x80 + 127 := by decide

theorem test_witness_IllegalAccessRefusedExactly :
    (about sample (.read16 0x80)).script = .read16 0x80 :: [] ∧ ¬ legalEvent (.read16 0x80) ∧ ¬ legalEvent (.read8 0x7F) ∧
    legalEvent (.read8 0x80) ∧ legalEvent (.write32 0x3C 0) ∧ ¬ legalEvent (.write32 0x40 0) := by
  refine ⟨rfl, id, by unfold legalEvent; decide, by unfold legalEvent; decide, by unfold legalEvent; decide,
    by unfold legalEvent; decide⟩

theorem test_witness_ResetInputResets : (about sample .reset).script = .reset :: [] := rfl

theorem test_witness_StepKeepsInvariant :
    (about bounds (commandEvent 0x00000029)).Inv ∧ ∃ t, step (about bounds (commandEvent 0x00000029)) = .next t :=
  ⟨⟨bounds_inv.buf, bounds_inv.masks, bounds_inv.classic, bounds_inv.fd, bounds_inv.bt, bounds_inv.fbt, bounds_inv.status⟩,
    _, rfl⟩

theorem test_witness_LegalStepsNeverStop :
    (about sample (.read8 0x80)).Inv ∧ ∀ e rest, (about sample (.read8 0x80)).script = e :: rest → legalEvent e := by
  refine ⟨⟨sample_inv.buf, sample_inv.masks, sample_inv.classic, sample_inv.fd, sample_inv.bt, sample_inv.fbt,
    sample_inv.status⟩, fun e rest h => ?_⟩
  cases h
  unfold legalEvent
  decide

theorem test_witness_FailedCommandChangesOnlyStatus :
    ∃ t, exec (.cfid 0) State.reset = .next t ∧ t.err ≠ 0 := ⟨_, rfl, by decide⟩

/-- One success and one of each error. -/
theorem test_witness_StatusDescribesTheCommand :
    (∃ t, exec .nop sample = .next t ∧ t.err = 0) ∧
    (∃ t, exec .dlcenc sample = .next t ∧ t.err = 1) ∧
    (∃ t, exec .fbtnew { sample with x := #v[1, 1, 1, 1, 1, 1, 1, 0] } = .next t ∧ t.err = 2 ∧ t.einfo = 7) ∧
    (∃ t, exec (.cfeq 0 1) oneClassic = .next t ∧ t.err = 9 ∧ t.einfo = 1) ∧
    (∃ t, exec .dlcdec sample = .next t ∧ t.err = 10) :=
  ⟨⟨_, rfl, by decide⟩, ⟨_, rfl, by decide⟩, ⟨_, rfl, by decide⟩, ⟨_, rfl, by decide⟩, ⟨_, rfl, by decide⟩⟩

theorem test_witness_InvalidSourceRaises :
    sourceInvalid State.reset (.cfeq 0 1) ∧ sourceInvalid State.reset .fbtenc ∧
    (oneClassic.cf[(0 : Slot)].v = true ∧ oneClassic.cf[(1 : Slot)].v = false) ∧
    (oneFd.ff[(0 : Slot)].v = true ∧ oneFd.ff[(1 : Slot)].v = false) :=
  ⟨rfl, rfl, by decide, by decide⟩

theorem test_witness_OperandRegisterFrame :
    (∃ t, exec (.cfst 0) sample = .next t) ∧ writesX0 (.cfst 0) = false ∧ (∃ t, exec .fbtenc sample = .next t) ∧
    (1 : Fin 8) ≠ 0 ∧ (7 : Fin 8) ≠ 0 := ⟨⟨_, rfl⟩, rfl, ⟨_, rfl⟩, by decide, by decide⟩

theorem test_witness_BufferFrame :
    (∃ t, exec (.ffst 0) sample = .next t) ∧ bufWritten sample (.ffst 0) ≤ 70 ∧
    (∃ t, exec .fbtenc sample = .next t) ∧ bufWritten sample .fbtenc ≤ 111 ∧
    (∃ t, exec (.cfdata 1) bounds = .next t) ∧ bufWritten bounds (.cfdata 1) ≤ 0 :=
  ⟨⟨_, rfl⟩, by decide, ⟨_, rfl⟩, by decide, ⟨_, rfl⟩, by decide⟩

theorem test_witness_SlotFrame :
    (∃ t, exec (.cfwr 0) sample = .next t) ∧ writesCf 1 (.cfwr 0) = false ∧ writesFf 0 (.cfwr 0) = false ∧
    (∃ t, exec (.ffwr 1) bounds = .next t) ∧ writesFf 0 (.ffwr 1) = false := ⟨⟨_, rfl⟩, rfl, rfl, ⟨_, rfl⟩, rfl⟩

theorem test_witness_TimingAndHostSideFrame :
    (∃ t, exec .fbtnew sample = .next t) ∧ Instr.fbtnew ≠ .btnew ∧ (∃ t, exec .btnew sample = .next t) ∧ Instr.btnew ≠ .fbtnew :=
  ⟨⟨_, rfl⟩, by decide, ⟨_, rfl⟩, by decide⟩

theorem test_witness_ValidBitsOnlyClearedByReset :
    (∀ rest, (about sample (commandEvent 0x00000118)).script ≠ .reset :: rest) ∧
    (∃ t, step (about sample (commandEvent 0x00000118)) = .next t) ∧
    (∀ a : Slot, sample.cf[a].v = true ∧ sample.ff[a].v = true) ∧ sample.bt.v = true ∧ sample.fbt.v = true :=
  ⟨fun _ h => (by cases h), ⟨_, rfl⟩, by decide, rfl, rfl⟩

theorem test_witness_UnitsAreIndependent :
    (∃ t, exec (.ffst 0) sample = .next t) ∧ frameCommand (.ffst 0) = true ∧
    (∃ t, exec .fbtenc sample = .next t) ∧ timingCommand .fbtenc = true := ⟨⟨_, rfl⟩, rfl, ⟨_, rfl⟩, rfl⟩

/-- CFNEW at the lengths 0, 8 and 9; DLCENC, FFNEW at 64 and 65 (the last in X0 and X2). -/
theorem test_witness_lengths :
    (start 1 0 0 0).x[2].toNat ≤ 8 ∧ (start 1 0 8 0).x[2].toNat ≤ 8 ∧ 8 < (start 1 0 9 0).x[2].toNat ∧
    (start 64 0 64 0).x[2].toNat ≤ 64 ∧ 64 < (start 65 0 65 0).x[2].toNat ∧
    (start 64 0 64 0).x[0].toNat ≤ 64 ∧ 64 < (start 65 0 65 0).x[0].toNat := by decide

/-- CFNEW: CfnewBuildsFrame, ConstructedIdentifierIsMasked (with R8's default masks), ClassicViewShowsGivenBytes. -/
theorem test_witness_CfnewBuildsFrame :
    (start 1 0 8 0).masks.wellFormed = true ∧ (start 1 0 8 0).x[2].toNat ≤ 8 ∧ (start 1 0 0 0).x[2].toNat ≤ 8 ∧
    8 < (start 1 0 9 0).x[2].toNat := by decide

/-- A state CFNEW leads to and a later one with the same slot. -/
theorem test_witness_ClassicViewShowsGivenBytes :
    ∃ t, exec (.cfnew 0 .standard) (start 1 0 3 0 [1, 2, 3]) = .next t ∧ (t.writeBuf 0 [0xAA, 0xAA]).cf[(0 : Slot)] = t.cf[(0 : Slot)] :=
  ⟨_, rfl, rfl⟩

/-- Classic slots of length 0, 3 and 8 and an invalid one: the clauses of CfidMasksByStoredMode, CfstdCfextReadModeFlag,
CflenReturnsLength, CfdataCopiesView, CfwrReplacesView, CfstStoresImage, ImagesRoundTrip. -/
theorem test_witness_classic_slots :
    (sample.cf[(0 : Slot)].v = true ∧ sample.cf[(0 : Slot)].len.toNat ≤ 8) ∧
    (bounds.cf[(0 : Slot)].v = true ∧ bounds.cf[(0 : Slot)].len.toNat ≤ 8) ∧
    (bounds.cf[(1 : Slot)].v = true ∧ bounds.cf[(1 : Slot)].len.toNat ≤ 8) ∧ State.reset.cf[(0 : Slot)].v = false := by decide

/-- The clauses of CfeqComparesFrames and EqualityIsSymmetric: both valid, the second invalid, the first invalid. -/
theorem test_witness_CfeqComparesFrames :
    (sample.cf[(0 : Slot)].v = true ∧ sample.cf[(1 : Slot)].v = true ∧ sample.cf[(0 : Slot)].len.toNat ≤ 8) ∧
    (bounds.cf[(0 : Slot)].Ok ∧ bounds.cf[(1 : Slot)].Ok ∧ bounds.ff[(0 : Slot)].Ok ∧ bounds.ff[(1 : Slot)].Ok) ∧
    (oneClassic.cf[(0 : Slot)].v = true ∧ oneClassic.cf[(1 : Slot)].v = false) ∧ State.reset.cf[(0 : Slot)].v = false :=
  ⟨by decide, ⟨bounds_inv.classic 0, bounds_inv.classic 1, bounds_inv.fd 0, bounds_inv.fd 1⟩, by decide, by decide⟩

/-- FD slots of the codes 0, 9 and 15 and an invalid one: the clauses of FfidFfstdFfextReadFrame, FflenFfdlcReadCode,
FfdataCopiesView, FfwrReplacesView, FffdFfbrsReadFlags, FfstStoresImage, ImagesRoundTrip. -/
theorem test_witness_fd_slots :
    (sample.ff[(0 : Slot)].v = true ∧ dlcLen sample.ff[(0 : Slot)].dlc.toNat = some 12) ∧
    (bounds.ff[(0 : Slot)].v = true ∧ dlcLen bounds.ff[(0 : Slot)].dlc.toNat = some 64 ∧ bounds.ff[(0 : Slot)].dlc.toNat ≤ 15) ∧
    (bounds.ff[(1 : Slot)].v = true ∧ dlcLen bounds.ff[(1 : Slot)].dlc.toNat = some 0) ∧
    State.reset.ff[(0 : Slot)].v = false := by decide

/-- The clauses of FfeqComparesFrames. -/
theorem test_witness_FfeqComparesFrames :
    (sample.ff[(0 : Slot)].v = true ∧ sample.ff[(1 : Slot)].v = true ∧ dlcLen sample.ff[(0 : Slot)].dlc.toNat = some 12) ∧
    (oneFd.ff[(0 : Slot)].v = true ∧ oneFd.ff[(1 : Slot)].v = false) ∧ State.reset.ff[(0 : Slot)].v = false := by decide

/-- Images whose length byte is 8, 9, 15 and 16: the clauses of CfldLoadsImage, FfldLoadsImage and ImagesRoundTrip. -/
theorem test_witness_images :
    ((start 0 0 0 0 [0, 0, 0, 0, 0, 8]).bufByte 5).toNat ≤ 8 ∧ 8 < ((start 0 0 0 0 [0, 0, 0, 0, 0, 9]).bufByte 5).toNat ∧
    ((start 0 0 0 0 [0, 0, 0, 0, 0, 15]).bufByte 5).toNat ≤ 15 ∧
    15 < ((start 0 0 0 0 [0, 0, 0, 0, 0, 16]).bufByte 5).toNat := by decide

/-- FFNEW: FfnewBuildsFrame, FdFlagsRoundTrip (with R8's default masks), FdLengthGrowsSilently. -/
theorem test_witness_FfnewBuildsFrame :
    (start 1 0 10 0).masks.wellFormed = true ∧ (start 1 0 10 0).x[2].toNat ≤ 64 ∧ (start 1 0 64 0).x[2].toNat ≤ 64 ∧
    64 < (start 1 0 65 0).x[2].toNat := by decide

/-- Each range of DlcencMapsLength at its ends, which do not meet. -/
theorem test_witness_DlcencMapsLength :
    (start 8 0 0 0).x[0].toNat ≤ 8 ∧
    (9 ≤ (start 9 0 0 0).x[0].toNat ∧ (start 9 0 0 0).x[0].toNat ≤ 12) ∧
    (13 ≤ (start 16 0 0 0).x[0].toNat ∧ (start 16 0 0 0).x[0].toNat ≤ 16) ∧
    (17 ≤ (start 17 0 0 0).x[0].toNat ∧ (start 17 0 0 0).x[0].toNat ≤ 20) ∧
    (21 ≤ (start 24 0 0 0).x[0].toNat ∧ (start 24 0 0 0).x[0].toNat ≤ 24) ∧
    (25 ≤ (start 25 0 0 0).x[0].toNat ∧ (start 25 0 0 0).x[0].toNat ≤ 32) ∧
    (33 ≤ (start 48 0 0 0).x[0].toNat ∧ (start 48 0 0 0).x[0].toNat ≤ 48) ∧
    (49 ≤ (start 49 0 0 0).x[0].toNat ∧ (start 49 0 0 0).x[0].toNat ≤ 64) := by decide

theorem test_witness_DlcdecMapsCode : (start 15 0 0 0).x[0].toNat < 16 ∧ 15 < (start 16 0 0 0).x[0].toNat := by decide

/-- A pair of lengths, a pair of codes, a length with its code, a representable length above it. -/
theorem test_witness_DlcMapLaws : (calcDlc 10 = some 9 ∧ calcDlc 33 = some 14 ∧ 10 ≤ 33) ∧
    (dlcLen 8 = some 8 ∧ dlcLen 9 = some 12 ∧ 8 < 9) ∧ (15 ≤ 15) ∧ (calcDlc 49 = some 15 ∧ dlcLen 15 = some 64) ∧
    (64 ∈ [0, 1, 2, 3, 4, 5, 6, 7, 8, 12, 16, 20, 24, 32, 48, 64] ∧ 49 ≤ 64) := by decide

/-- BTNEW: all maxima; only the first field out of range; only the last. -/
theorem test_witness_BtnewStoresOrReports :
    (within 1 64 (start 64 4 16 8).x[0] ∧ within 1 4 (start 64 4 16 8).x[1] ∧ within 1 16 (start 64 4 16 8).x[2] ∧
      within 1 8 (start 64 4 16 8).x[3]) ∧
    ¬ within 1 64 (start 65 1 1 1).x[0] ∧
    ((within 1 64 (start 1 1 1 9).x[0] ∧ within 1 4 (start 1 1 1 9).x[1] ∧ within 1 16 (start 1 1 1 9).x[2]) ∧
      ¬ within 1 8 (start 1 1 1 9).x[3]) := by unfold within; decide

/-- BTENC and the packing: a valid BT at its maxima, another one, and an invalid BT. -/
theorem test_witness_BtencPacksTiming :
    bounds.bt.v = true ∧ bounds.bt.q.InClassic ∧ sample.bt.q.InClassic ∧ State.reset.bt.v = false ∧
    packTiming bounds.bt.q = packTiming bounds.bt.q :=
  ⟨rfl, bounds_inv.bt rfl, sample_inv.bt rfl, rfl, rfl⟩

/-- FBTNEW: all maxima; only the last register out of range. -/
theorem test_witness_FbtnewStoresOrReports :
    (∀ k (hk : k < 8), within 1 (([1024, 128, 256, 128, 1024, 16, 32, 16] : List Nat)[k]'(by simp; omega))
      ({ State.reset with x := #v[1024, 128, 256, 128, 1024, 16, 32, 16] } : State).x[k]) ∧
    (∀ j (hj : j < 7), within 1 (([1024, 128, 256, 128, 1024, 16, 32, 16] : List Nat)[j]'(by simp; omega))
      ({ State.reset with x := #v[1, 1, 1, 1, 1, 1, 1, 17] } : State).x[j]) ∧
    ¬ within 1 16 ({ State.reset with x := #v[1, 1, 1, 1, 1, 1, 1, 17] } : State).x[7] := by unfold within; decide

/-- FBTENC and the descriptor: a valid FBT at its maxima, and an invalid one. -/
theorem test_witness_FbtencWritesDescriptor :
    bounds.fbt.v = true ∧ bounds.fbt.nom.InNominal ∧ bounds.fbt.data.InData ∧ State.reset.fbt.v = false :=
  ⟨rfl, (bounds_inv.fbt rfl).1, (bounds_inv.fbt rfl).2, rfl⟩

/-- DecimalTextOfValue: a value whose text begins with the digit 0. -/
theorem test_witness_DecimalTextOfValue : (dec 0).head? = some 0x30 := by decide

end Sys2Proof.Tests
end

/-! PROOF. The statements of spec/00_scope.md: from a state that meets the invariant nothing but an illegal access stops the
machine (R15), and the commands of one unit neither read nor write the state of the other (R2). -/

namespace Sys2Proof.Machine

/-! ### A command answers a next state when the invariant holds

The two shapes that read a slot answer whenever their continuation does on a valid slot; the invariant is needed exactly where
a view's length or a timing's bounds are. -/

theorem withClassic_progress {s : State} {a : Slot} {n : BitVec 4} {k : ClassicFrame → Result}
    (h : s.cf[a].v = true → ∃ t, k s.cf[a] = .next t) : ∃ t, withClassic s a n k = .next t := by
  cases hv : s.cf[a].v with
  | false => exact ⟨_, withClassic_invalid hv n k⟩
  | true => rw [withClassic_valid hv]; exact h hv

theorem withFd_progress {s : State} {a : Slot} {n : BitVec 4} {k : FdFrame → Result}
    (h : s.ff[a].v = true → ∃ t, k s.ff[a] = .next t) : ∃ t, withFd s a n k = .next t := by
  cases hv : s.ff[a].v with
  | false => exact ⟨_, withFd_invalid hv n k⟩
  | true => rw [withFd_valid hv]; exact h hv

theorem readClassic_progress (s : State) (a : Slot) (f : ClassicFrame → Word) : ∃ t, readClassic s a f = .next t :=
  withClassic_progress fun _ => ⟨_, rfl⟩

theorem readFd_progress (s : State) (a : Slot) (f : FdFrame → Word) : ∃ t, readFd s a f = .next t :=
  withFd_progress fun _ => ⟨_, rfl⟩

/-- R29 gives the view of a valid classic slot its length. -/
theorem withClassicLength_progress {c : ClassicFrame} (hc : c.Ok) (hv : c.v = true) {k : Nat → Result}
    (h : ∀ n, ∃ t, k n = .next t) : ∃ t, withClassicLength c k = .next t := by
  rw [withClassicLength_of_le (hc hv)]; exact h _

/-- R31 gives the view of a valid FD slot its length. -/
theorem withFdLength_progress {c : FdFrame} (hc : c.Ok) (hv : c.v = true) {k : Nat → Result}
    (h : ∀ n, ∃ t, k n = .next t) : ∃ t, withFdLength c k = .next t := by
  obtain ⟨n, hn, -⟩ := dlcLen_isSome (hc hv)
  rw [withFdLength_of_some hn]; exact h n

/-- R32: BTENC never meets a timing outside its bounds. -/
theorem execBtenc_progress {s : State} (h : s.bt.Ok) : ∃ t, execBtenc s = .next t := by
  unfold execBtenc
  split
  · next hv => rw [if_pos ((Quad.classicOk_iff _).mpr (h hv))]; exact ⟨_, rfl⟩
  · exact ⟨_, rfl⟩

/-- R33: FBTENC never meets a timing outside its bounds. -/
theorem execFbtenc_progress {s : State} (h : s.fbt.Ok) : ∃ t, execFbtenc s = .next t := by
  unfold execFbtenc
  split
  · next hv => rw [if_pos ((FdTiming.inRange_iff _).mpr (h hv))]; exact ⟨_, rfl⟩
  · exact ⟨_, rfl⟩

/-- Every command answers a next state from a state that meets the invariant: none of the four faults is reached. -/
theorem exec_progress {s : State} (hs : s.Inv) (i : Instr) : ∃ t, exec i s = .next t := by
  cases i with
  | nop | cfnew | cfld | ffnew | ffld | dlcenc | dlcdec | btnew | fbtnew => exact ⟨_, rfl⟩
  | cfid a | cfstd a | cfext a | cflen a =>
    simp only [exec, execCfid, execCfstd, execCfext, execCflen]
    exact readClassic_progress s a _
  | ffid a | ffstd a | ffext a | ffdlc a | fffd a | ffbrs a =>
    simp only [exec, execFfid, execFfstd, execFfext, execFfdlc, execFffd, execFfbrs]
    exact readFd_progress s a _
  | cfst a =>
    simp only [exec, execCfst]
    exact withClassic_progress fun _ => ⟨_, rfl⟩
  | ffst a =>
    simp only [exec, execFfst]
    exact withFd_progress fun _ => ⟨_, rfl⟩
  | cfdata a | cfwr a =>
    simp only [exec, execCfdata, execCfwr]
    exact withClassic_progress fun hv => withClassicLength_progress (hs.classic a) hv fun _ => ⟨_, rfl⟩
  | fflen a | ffdata a | ffwr a =>
    simp only [exec, execFflen, execFfdata, execFfwr]
    exact withFd_progress fun hv => withFdLength_progress (hs.fd a) hv fun _ => ⟨_, rfl⟩
  | cfeq a b =>
    simp only [exec, execCfeq]
    refine withClassic_progress fun hv => withClassic_progress fun _ => ?_
    split
    · exact withClassicLength_progress (hs.classic a) hv fun _ => ⟨_, rfl⟩
    · exact ⟨_, rfl⟩
  | ffeq a b =>
    simp only [exec, execFfeq]
    refine withFd_progress fun hv => withFd_progress fun _ => ?_
    split
    · exact withFdLength_progress (hs.fd a) hv fun _ => ⟨_, rfl⟩
    · exact ⟨_, rfl⟩
  | btenc => exact execBtenc_progress hs.bt
  | fbtenc => exact execFbtenc_progress hs.fbt

/-! ### A legal access is answered -/

/-- The invariant does not look at the accesses still to come. -/
theorem State.Inv.withScript {s : State} (h : s.Inv) (rest : List HostEvent) : State.Inv { s with script := rest } :=
  ⟨h.buf, h.masks, h.classic, h.fd, h.bt, h.fbt, h.status⟩

/-- R53: the offsets of a legal 32-bit access are CMD, STATUS and the operand registers. -/
theorem legalWordOffset_cases {off : BitVec 8}
    (h : off.toNat = 0x00 ∨ off.toNat = 0x04 ∨ ∃ i : Fin 8, off.toNat = 0x20 + 4 * i.val) :
    off = cmdOffset ∨ off = statusOffset ∨ ∃ i, operandAt off = some i := by
  obtain h | h | ⟨i, h⟩ := h
  · exact .inl (offset_eq h)
  · exact .inr (.inl (offset_eq h))
  · exact .inr (.inr ⟨i, operandAt_eq h⟩)

/-- R53: the offsets of a legal 8-bit access are those of BUF. -/
theorem bufferAt_of_le {off : BitVec 8} (h : 0x80 ≤ off.toNat) : bufferAt off = some (off.toNat - 0x80) :=
  bufferAt_eq (by omega)

/-- R53, R54: the block answers a legal access, or takes the word it writes to CMD. -/
theorem hostEvent_of_legal {e : HostEvent} (h : legalEvent e) (s : State) :
    (∃ t, hostEvent s e = .done t) ∨ ∃ w, hostEvent s e = .command w s := by
  cases e with
  | read8 off => exact .inl ⟨_, by rw [hostEvent, read8, bufferAt_of_le h]⟩
  | write8 off v => exact .inl ⟨_, by rw [hostEvent, write8, bufferAt_of_le h]⟩
  | read16 off => exact h.elim
  | write16 off v => exact h.elim
  | read32 off =>
    obtain rfl | rfl | ⟨i, hi⟩ := legalWordOffset_cases h
    · exact .inl ⟨_, rfl⟩
    · exact .inl ⟨_, rfl⟩
    · left
      simp only [hostEvent, read32, hi]
      split_ifs <;> exact ⟨_, rfl⟩
  | write32 off v =>
    obtain rfl | rfl | ⟨i, hi⟩ := legalWordOffset_cases h
    · exact .inr ⟨v, rfl⟩
    · exact .inl ⟨_, rfl⟩
    · simp only [hostEvent, write32, hi]
      split_ifs
      · exact .inr ⟨v, rfl⟩
      · exact .inl ⟨_, rfl⟩
      · exact .inl ⟨_, rfl⟩
  | reset => exact .inl ⟨_, rfl⟩

/-- What the block fetches when the next access, if any, is legal: a finished event, or a command on the
state without that access. -/
theorem fetch_of_legal {s : State} (h : ∀ e rest, s.script = e :: rest → legalEvent e) :
    (∃ t, fetch s = .done t) ∨ ∃ w rest, fetch s = .command w { s with script := rest } := by
  cases hs : s.script with
  | nil => exact .inl ⟨s, by simp only [fetch, hs]⟩
  | cons e rest =>
    have hf : fetch s = hostEvent { s with script := rest } e := by simp only [fetch, hs]
    rw [hf]
    exact (hostEvent_of_legal (h e rest hs) _).imp_right fun ⟨w, hw⟩ => ⟨w, rest, hw⟩

/-! ### The units do not see each other (R2)

A unit is independent of a part of the state when running a command after overwriting that part is the same as overwriting it
after the run. The shared shapes of the commands hand this on from their continuations. -/

/-- The outcome with `g` applied to its next state; a fault stays a fault. -/
def mapNext (g : State → State) : Result → Result
  | .next t => .next (g t)
  | .fault r => .fault r
  | .refused r => .refused r

/-- The state with the Bit-Timing Unit's registers BT and FBT overwritten. -/
def State.withTiming (b : ClassicTiming) (f : FdTiming) (s : State) : State := { s with bt := b, fbt := f }

/-- The state with the Frame Codec Unit's four slots overwritten. -/
def State.withSlots (c : Vector ClassicFrame 2) (f : Vector FdFrame 2) (s : State) : State := { s with cf := c, ff := f }

theorem withClassicLength_mapNext (g : State → State) (c : ClassicFrame) {k k' : Nat → Result}
    (h : ∀ n, k' n = mapNext g (k n)) : withClassicLength c k' = mapNext g (withClassicLength c k) := by
  unfold withClassicLength
  split
  · exact h _
  · rfl

theorem withFdLength_mapNext (g : State → State) (c : FdFrame) {k k' : Nat → Result}
    (h : ∀ n, k' n = mapNext g (k n)) : withFdLength c k' = mapNext g (withFdLength c k) := by
  unfold withFdLength
  cases dlcLen c.dlc.toNat with
  | none => rfl
  | some n => exact h n

/-- A choice between two outcomes carries `g` along when both of them do. -/
theorem ite_mapNext (g : State → State) (c : Prop) [Decidable c] {p p' q q' : Result}
    (hp : p' = mapNext g p) (hq : q' = mapNext g q) : (if c then p' else q') = mapNext g (if c then p else q) := by
  split
  · exact hp
  · exact hq

section Timing
variable (b : ClassicTiming) (f : FdTiming) (s : State)

@[simp] theorem State.withTiming_x : (s.withTiming b f).x = s.x := rfl

theorem withClassic_withTiming (a : Slot) (n : BitVec 4) {k k' : ClassicFrame → Result}
    (h : ∀ c, k' c = mapNext (State.withTiming b f) (k c)) :
    withClassic (s.withTiming b f) a n k' = mapNext (State.withTiming b f) (withClassic s a n k) := by
  cases hv : s.cf[a].v with
  | false => rw [withClassic_invalid hv, withClassic_invalid (s := s.withTiming b f) hv]; rfl
  | true => rw [withClassic_valid hv, withClassic_valid (s := s.withTiming b f) hv]; exact h _

theorem withFd_withTiming (a : Slot) (n : BitVec 4) {k k' : FdFrame → Result}
    (h : ∀ c, k' c = mapNext (State.withTiming b f) (k c)) :
    withFd (s.withTiming b f) a n k' = mapNext (State.withTiming b f) (withFd s a n k) := by
  cases hv : s.ff[a].v with
  | false => rw [withFd_invalid hv, withFd_invalid (s := s.withTiming b f) hv]; rfl
  | true => rw [withFd_valid hv, withFd_valid (s := s.withTiming b f) hv]; exact h _

theorem readClassic_withTiming (a : Slot) (r : ClassicFrame → Word) :
    readClassic (s.withTiming b f) a r = mapNext (State.withTiming b f) (readClassic s a r) :=
  withClassic_withTiming b f s a 0 fun _ => rfl

theorem readFd_withTiming (a : Slot) (r : FdFrame → Word) :
    readFd (s.withTiming b f) a r = mapNext (State.withTiming b f) (readFd s a r) :=
  withFd_withTiming b f s a 0 fun _ => rfl

/-- A byte string and a returned value do not look at the timing registers. -/
theorem State.writeBuf_answer_withTiming (bs : List Byte) (w : Word) :
    ((s.withTiming b f).writeBuf 0 bs).answer w = ((s.writeBuf 0 bs).answer w).withTiming b f :=
  congrArg (State.answer · w) (State.writeBuf_withTiming bs 0 s b f)

/-- A byte string alone does not look at the timing registers. -/
theorem State.writeBuf_ok_withTiming (bs : List Byte) :
    ((s.withTiming b f).writeBuf 0 bs).ok = ((s.writeBuf 0 bs).ok).withTiming b f :=
  congrArg State.ok (State.writeBuf_withTiming bs 0 s b f)

/-- R2: a command of the Frame Codec Unit carries BT and FBT along unread. -/
theorem exec_withTiming {i : Instr} (hi : frameCommand i = true) :
    exec i (s.withTiming b f) = mapNext (State.withTiming b f) (exec i s) := by
  cases i with
  | nop | btnew | btenc | fbtnew | fbtenc => cases hi
  | cfid a | cfstd a | cfext a | cflen a =>
    simp only [exec, execCfid, execCfstd, execCfext, execCflen]
    exact readClassic_withTiming b f s a _
  | ffid a | ffstd a | ffext a | ffdlc a | fffd a | ffbrs a =>
    simp only [exec, execFfid, execFfstd, execFfext, execFfdlc, execFffd, execFfbrs]
    exact readFd_withTiming b f s a _
  | cfst a =>
    simp only [exec, execCfst]
    exact withClassic_withTiming b f s a 0 fun c => congrArg Host.Outcome.next (State.writeBuf_ok_withTiming b f s c.image)
  | ffst a =>
    simp only [exec, execFfst]
    exact withFd_withTiming b f s a 0 fun c => congrArg Host.Outcome.next (State.writeBuf_ok_withTiming b f s c.image)
  | cfdata a =>
    simp only [exec, execCfdata]
    exact withClassic_withTiming b f s a 0 fun c => withClassicLength_mapNext _ c fun n =>
      congrArg Host.Outcome.next (State.writeBuf_answer_withTiming b f s (view c.data n) _)
  | ffdata a =>
    simp only [exec, execFfdata]
    exact withFd_withTiming b f s a 0 fun c => withFdLength_mapNext _ c fun n =>
      congrArg Host.Outcome.next (State.writeBuf_answer_withTiming b f s (view c.data n) _)
  | cfwr a =>
    simp only [exec, execCfwr]
    exact withClassic_withTiming b f s a 0 fun c => withClassicLength_mapNext _ c fun _ => rfl
  | fflen a | ffwr a =>
    simp only [exec, execFflen, execFfwr]
    exact withFd_withTiming b f s a 0 fun c => withFdLength_mapNext _ c fun _ => rfl
  | cfeq a a' =>
    simp only [exec, execCfeq]
    exact withClassic_withTiming b f s a 0 fun c => withClassic_withTiming b f s a' 1 fun d =>
      ite_mapNext _ _ (withClassicLength_mapNext _ c fun _ => rfl) rfl
  | ffeq a a' =>
    simp only [exec, execFfeq]
    exact withFd_withTiming b f s a 0 fun c => withFd_withTiming b f s a' 1 fun d =>
      ite_mapNext _ _ (withFdLength_mapNext _ c fun _ => rfl) rfl
  | cfnew a mode | cfld a | ffld a =>
    simp only [exec, execCfnew, execCfld, execFfld, mapNext, apply_ite (State.withTiming b f)]
    rfl
  | ffnew a mode fd brs =>
    simp only [exec, execFfnew, State.withTiming_x, mapNext]
    cases calcDlc s.x[2].toNat <;> rfl
  | dlcenc =>
    simp only [exec, execDlcenc, State.withTiming_x, mapNext]
    cases calcDlc s.x[0].toNat <;> rfl
  | dlcdec =>
    simp only [exec, execDlcdec, State.withTiming_x, mapNext]
    cases dlcLen s.x[0].toNat <;> rfl

end Timing

section Slots
variable (c : Vector ClassicFrame 2) (f : Vector FdFrame 2) (s : State)

@[simp] theorem lowQuad_withSlots : lowQuad (s.withSlots c f) = lowQuad s := rfl
@[simp] theorem highQuad_withSlots : highQuad (s.withSlots c f) = highQuad s := rfl

/-- A byte string and a returned value do not look at the slots. -/
theorem State.writeBuf_answer_withSlots (bs : List Byte) (w : Word) :
    ((s.withSlots c f).writeBuf 0 bs).answer w = ((s.writeBuf 0 bs).answer w).withSlots c f :=
  congrArg (State.answer · w) (State.writeBuf_withSlots bs 0 s c f)

/-- R2: a command of the Bit-Timing Unit carries the slots along unread. -/
theorem exec_withSlots {i : Instr} (hi : timingCommand i = true) :
    exec i (s.withSlots c f) = mapNext (State.withSlots c f) (exec i s) := by
  cases i with
  | btnew =>
    simp only [exec, execBtnew, lowQuad_withSlots, mapNext]
    cases firstOutOfBounds Config.classicBounds (lowQuad s).fields <;> rfl
  | fbtnew =>
    simp only [exec, execFbtnew, lowQuad_withSlots, highQuad_withSlots, mapNext]
    cases firstOutOfBounds fdBounds ((lowQuad s).fields ++ (highQuad s).fields) <;> rfl
  | btenc =>
    exact ite_mapNext _ _ (ite_mapNext _ _ rfl rfl) rfl
  | fbtenc =>
    exact ite_mapNext _ _
      (ite_mapNext _ _ (congrArg Host.Outcome.next (State.writeBuf_answer_withSlots c f s _ _)) rfl) rfl
  | _ => cases hi

end Slots

/-! ### The obligations -/

/-- Settles O16: the invariant rules out the four faults, so an access stops the machine only where the bus refuses it. -/
theorem legalStepsNeverStop : Obligations.LegalStepsNeverStop := by
  intro s hs hlegal
  obtain ⟨t, ht⟩ | ⟨w, rest, hw⟩ := fetch_of_legal hlegal
  · exact ⟨t, by simp only [step, ht]⟩
  · simp only [step, hw]
    split
    · exact exec_progress (hs.withScript rest) _
    · exact ⟨_, rfl⟩

/-- Settles O25: each unit's commands carry the other unit's registers along unread, and overwriting these with the values they
already hold shows that they are unchanged. -/
theorem unitsAreIndependent : Obligations.UnitsAreIndependent := by
  intro i s t h
  constructor
  · intro hi
    have run (b : ClassicTiming) (f : FdTiming) : exec i (s.withTiming b f) = .next (t.withTiming b f) := by
      rw [exec_withTiming b f s hi, h]; rfl
    have self : t = t.withTiming s.bt s.fbt := Host.Outcome.next.inj (h.symm.trans (run s.bt s.fbt))
    exact ⟨(congrArg State.bt self :), (congrArg State.fbt self :), run⟩
  · intro hi
    have run (c : Vector ClassicFrame 2) (f : Vector FdFrame 2) : exec i (s.withSlots c f) = .next (t.withSlots c f) := by
      rw [exec_withSlots c f s hi, h]; rfl
    have self : t = t.withSlots s.cf s.ff := Host.Outcome.next.inj (h.symm.trans (run s.cf s.ff))
    exact ⟨(congrArg State.cf self :), (congrArg State.ff self :), run⟩

end Sys2Proof.Machine

/-! PROOF. The statements of spec/10_state.md: what the state is after reset, what an access of the host reads and stores, the
invariant of the registers (R29, R31, R32, R33) and the frames of the commands (R20, R34, R35, R76). -/

namespace Sys2Proof.Machine

/-! ### The invariant, one rule per state operation -/

theorem statusPair_zero : statusPair 0 0 := .inl ⟨.inl rfl, rfl⟩

/-- R200, R202: an error and its information make a pair STATUS can show. -/
theorem statusPair_of_infoOk {i : Instr} {e : CommandError} {n : BitVec 4} (h : infoOk i e n) : statusPair e.code n := by
  cases e with
  | frameTooLarge => exact .inl ⟨.inr (.inl rfl), h⟩
  | illegalCommand => exact .inl ⟨.inr (.inr (.inl rfl)), h⟩
  | lengthCodeInvalid => exact .inl ⟨.inr (.inr (.inr rfl)), h⟩
  | timingOutOfBounds => exact .inr (.inl ⟨rfl, h.1⟩)
  | invalidSource =>
    obtain rfl | ⟨rfl, -⟩ := h
    · exact .inr (.inr ⟨rfl, by decide⟩)
    · exact .inr (.inr ⟨rfl, by decide⟩)

/-- After reset no register is valid, so the rules of R29, R31, R32 and R33 ask nothing. -/
theorem State.reset_inv : State.reset.Inv where
  buf := Mem.wf_reset
  masks := by decide
  classic a := by fin_cases a <;> exact fun h => nomatch h
  fd a := by fin_cases a <;> exact fun h => nomatch h
  bt h := nomatch h
  fbt h := nomatch h
  status := statusPair_zero

namespace State.Inv
variable {s : State} (hs : s.Inv)
include hs

theorem raise {e : CommandError} {n : BitVec 4} (h : statusPair e.code n) : (s.raise e n).Inv :=
  { hs with status := h }

theorem ok : s.ok.Inv := { hs with status := statusPair_zero }

theorem illegalCommand : s.illegalCommand.Inv := hs.raise (.inl ⟨.inr (.inr (.inl rfl)), rfl⟩)

theorem setX (i : Fin 8) (w : Word) : (s.setX i w).Inv := { hs with }

theorem answer (w : Word) : (s.answer w).Inv := (hs.setX 0 w).ok

theorem replied (a : Answer) : (s.replied a).Inv := { hs with }

theorem setBufByte {j : Nat} (b : Byte) (hj : j < 128) : (s.setBufByte j b).Inv :=
  { hs with buf := Mem.write_wf b hs.buf hj }

/-- A byte string that fits BUF keeps the invariant. -/
theorem writeBuf {bs : List Byte} (h : bs.length ≤ 128) : (s.writeBuf 0 bs).Inv := by
  rw [State.writeBuf_eq]
  exact { hs with buf := State.writeBuf_wf bs hs.buf (by omega) }

theorem setCf (a : Slot) {c : ClassicFrame} (hc : c.Ok) : (s.setCf a c).Inv where
  __ := hs
  classic b := by
    rw [State.setCf_getElem]
    split
    · exact hc
    · exact hs.classic b

theorem setFf (a : Slot) {c : FdFrame} (hc : c.Ok) : (s.setFf a c).Inv where
  __ := hs
  fd b := by
    rw [State.setFf_getElem]
    split
    · exact hc
    · exact hs.fd b

/-- The reset input leaves the masks, and everything the invariant speaks of besides is what reset gives it. -/
theorem assertReset : s.assertReset.Inv := { State.reset_inv with masks := hs.masks }

end State.Inv

/-- Every command keeps the invariant: its shape says that what it stores satisfies the rule of its destination. -/
theorem Shape.keeps_inv {i : Instr} {s t : State} (h : Shape i s t) (hs : s.Inv) : t.Inv := by
  cases h with
  | raised e n _ info => exact hs.raise (statusPair_of_infoOk info)
  | done => exact hs.ok
  | answered w => exact hs.answer w
  | viewed bs w _ _ hl => exact (hs.writeBuf hl).answer w
  | stored bs _ hl => exact (hs.writeBuf hl).ok
  | classicBuilt a c _ _ ok => exact (hs.setCf a fun _ => ok).ok
  | fdBuilt a c _ _ ok => exact (hs.setFf a fun _ => ok).ok
  | classicTimed q _ ok => exact State.Inv.ok { hs with bt := fun _ => ok }
  | fdTimed q r _ hq hr => exact State.Inv.ok { hs with fbt := fun _ => ⟨hq, hr⟩ }

/-- The host's reads and stores keep the invariant. -/
theorem HostShape.keeps_inv {s t : State} (h : HostShape s t) (hs : s.Inv) : t.Inv := by
  cases h with
  | same => exact hs
  | replied a => exact hs.replied a
  | stored i v => exact hs.setX i v
  | byteStored j v hj => exact hs.setBufByte v hj

/-! ### The frames of the commands -/

/-- R20, R76: the operand registers after a command are as before, or the command has a result and X0 holds it. -/
theorem Shape.operands {i : Instr} {s t : State} (h : Shape i s t) :
    t.x = s.x ∨ writesX0 i = true ∧ ∃ w, t.x = s.x.set 0 w := by
  cases h with
  | answered w hx => exact .inr ⟨hx, w, rfl⟩
  | viewed bs w hx => exact .inr ⟨hx, w, by simp⟩
  | stored bs => exact .inl (by simp)
  | _ => exact .inl rfl

/-- R32: the timing register BT is BTNEW's alone. -/
theorem Shape.bt_eq {i : Instr} {s t : State} (h : Shape i s t) (hi : i ≠ .btnew) : t.bt = s.bt := by
  cases h with
  | classicTimed _ h => exact absurd h hi
  | viewed | stored => simp
  | _ => rfl

/-- R33: the timing register FBT is FBTNEW's alone. -/
theorem Shape.fbt_eq {i : Instr} {s t : State} (h : Shape i s t) (hi : i ≠ .fbtnew) : t.fbt = s.fbt := by
  cases h with
  | fdTimed _ _ h => exact absurd h hi
  | viewed | stored => simp
  | _ => rfl

/-- R35: a command leaves the fields of the state that are not the block's. -/
theorem Shape.hostSide_eq {i : Instr} {s t : State} (h : Shape i s t) :
    t.masks = s.masks ∧ t.script = s.script ∧ t.answers = s.answers ∧ t.resets = s.resets := by
  cases h with
  | viewed | stored => simp
  | _ => exact ⟨rfl, rfl, rfl, rfl⟩

/-! ### The valid bits -/

/-- R34: every register valid in `s` is valid in `t`. -/
structure ValidKept (s t : State) : Prop where
  cf (a : Slot) : s.cf[a].v = true → t.cf[a].v = true
  ff (a : Slot) : s.ff[a].v = true → t.ff[a].v = true
  bt : s.bt.v = true → t.bt.v = true
  fbt : s.fbt.v = true → t.fbt.v = true

/-- A transition that leaves the slots and the timing registers keeps their valid bits. -/
theorem ValidKept.of_eq {s t : State} (hc : t.cf = s.cf) (hf : t.ff = s.ff) (hb : t.bt = s.bt) (hfb : t.fbt = s.fbt) :
    ValidKept s t where
  cf a h := by rwa [hc]
  ff a h := by rwa [hf]
  bt h := by rwa [hb]
  fbt h := by rwa [hfb]

theorem ValidKept.refl (s : State) : ValidKept s s := .of_eq rfl rfl rfl rfl

theorem ValidKept.setCf (s : State) (a : Slot) {c : ClassicFrame} (hv : c.v = true) : ValidKept s (s.setCf a c) where
  __ := ValidKept.refl s
  cf b hb := by
    rw [State.setCf_getElem]
    split
    · exact hv
    · exact hb

theorem ValidKept.setFf (s : State) (a : Slot) {c : FdFrame} (hv : c.v = true) : ValidKept s (s.setFf a c) where
  __ := ValidKept.refl s
  ff b hb := by
    rw [State.setFf_getElem]
    split
    · exact hv
    · exact hb

/-- R34: a command that writes a slot or a timing register leaves it valid. -/
theorem Shape.validKept {i : Instr} {s t : State} (h : Shape i s t) : ValidKept s t := by
  cases h with
  | raised | done | answered => exact .of_eq rfl rfl rfl rfl
  | viewed | stored => exact .of_eq (by simp) (by simp) (by simp) (by simp)
  | classicBuilt a c _ hv => exact { ValidKept.setCf s a hv with }
  | fdBuilt a c _ hv => exact { ValidKept.setFf s a hv with }
  | classicTimed => exact { ValidKept.refl s with bt := fun _ => rfl }
  | fdTimed => exact { ValidKept.refl s with fbt := fun _ => rfl }

/-- The host's reads and stores reach no slot and no timing register. -/
theorem HostShape.validKept {s t : State} (h : HostShape s t) : ValidKept s t := by
  cases h <;> exact .of_eq rfl rfl rfl rfl

/-- R34: every step but the reset input keeps the valid bits. -/
theorem step_validKept {s t : State} (hr : ∀ rest, s.script ≠ .reset :: rest) (h : step s = .next t) : ValidKept s t := by
  obtain ⟨-, rfl⟩ | ⟨e, rest, hs, ⟨rfl, -⟩ | hh | ⟨i, hi⟩ | rfl⟩ := step_next h
  · exact .refl t
  · exact absurd hs (hr rest)
  · exact { hh.validKept with }
  · exact { (exec_next hi).validKept with }
  · exact .of_eq rfl rfl rfl rfl

/-! ### One access of the host -/

/-- A step whose next event is finished within the access leaves what the event does on the state without it. -/
theorem step_of_done {s t : State} {e : HostEvent} {rest : List HostEvent} (hs : s.script = e :: rest)
    (h : hostEvent { s with script := rest } e = .done t) : step s = .next t := by
  simp only [step, fetch, hs, h]

/-- R22: CMD reads 0. -/
theorem read32_cmd (s : State) {off : BitVec 8} (h : off.toNat = 0x00) : read32 s off = .done (s.replied (.word 0)) := by
  rw [show off = cmdOffset from offset_eq h]; rfl

/-- R24: STATUS reads its fields. -/
theorem read32_status (s : State) {off : BitVec 8} (h : off.toNat = 0x04) :
    read32 s off = .done (s.replied (.word s.status)) := by
  rw [show off = statusOffset from offset_eq h]; rfl

/-- R20: an operand register reads its value. -/
theorem read32_operand (s : State) {off : BitVec 8} {i : Fin 8} (h : off.toNat = 0x20 + 4 * i.val) :
    read32 s off = .done (s.replied (.word s.x[i])) := by
  obtain ⟨hcmd, hstatus⟩ := not_cmd_of_operand h
  simp only [read32, if_neg hcmd, if_neg hstatus, operandAt_eq h]

/-- R24: a write to STATUS is ignored. -/
theorem write32_status (s : State) {off : BitVec 8} (v : Word) (h : off.toNat = 0x04) : write32 s off v = .done s := by
  rw [show off = statusOffset from offset_eq h]; rfl

/-- R20: a write to an operand register stores the value. -/
theorem write32_operand (s : State) {off : BitVec 8} {i : Fin 8} (v : Word) (h : off.toNat = 0x20 + 4 * i.val) :
    write32 s off v = .done (s.setX i v) := by
  obtain ⟨hcmd, hstatus⟩ := not_cmd_of_operand h
  simp only [write32, if_neg hcmd, if_neg hstatus, operandAt_eq h]

/-- R27: a byte of BUF reads its value. -/
theorem read8_buffer (s : State) {off : BitVec 8} {j : Nat} (h : off.toNat = 0x80 + j) :
    read8 s off = .done (s.replied (.byte (s.bufByte j))) := by
  simp only [read8, bufferAt_eq h]

/-- R27: a write to a byte of BUF stores it. -/
theorem write8_buffer (s : State) {off : BitVec 8} {j : Nat} (v : Byte) (h : off.toNat = 0x80 + j) :
    write8 s off v = .done (s.setBufByte j v) := by
  simp only [write8, bufferAt_eq h]

/-! ### STATUS bit by bit -/

theorem getLsbD_append_validBit {n : Nat} (x : BitVec n) (v : Bool) (k : Nat) :
    (x ++ validBit v).getLsbD k = if k = 0 then v else x.getLsbD (k - 1) := by
  rw [BitVec.getLsbD_append]
  cases k <;> cases v <;> simp [validBit]

/-- R24: STATUS bit by bit, each field counted from its own lowest bit. -/
theorem State.status_getLsbD (s : State) (k : Nat) : s.status.getLsbD k =
    if k < 4 then s.err.getLsbD k else if k - 4 < 4 then s.einfo.getLsbD (k - 4)
    else if k - 8 = 0 then s.cf[0].v else if k - 9 = 0 then s.cf[1].v else if k - 10 = 0 then s.ff[0].v
    else if k - 11 = 0 then s.ff[1].v else if k - 12 = 0 then s.bt.v else if k - 13 = 0 then s.fbt.v else false := by
  -- The fields in their concatenation: a bit vector whose width is a sum, where STATUS says 32.
  have layout : s.status.getLsbD k = BitVec.getLsbD ((0 : BitVec 18) ++ validBit s.fbt.v ++ validBit s.bt.v ++
    validBit s.ff[1].v ++ validBit s.ff[0].v ++ validBit s.cf[1].v ++ validBit s.cf[0].v ++ s.einfo ++ s.err) k := rfl
  rw [layout, BitVec.getLsbD_append, BitVec.getLsbD_append]
  simp only [getLsbD_append_validBit]
  simp only [Nat.sub_sub, Nat.reduceAdd, BitVec.ofNat_eq_ofNat, BitVec.getLsbD_zero]

/-! ### The obligations -/

/-- Settles O15: a step leaves the state, resets it, or has one of the shapes of an access or a command, and each keeps the
invariant on the state without the access. -/
theorem stepKeepsInvariant : Obligations.StepKeepsInvariant := by
  intro s t hs h
  obtain ⟨-, rfl⟩ | ⟨e, rest, -, ⟨-, rfl⟩ | hh | ⟨i, hi⟩ | rfl⟩ := step_next h
  · exact hs
  · exact (hs.withScript rest).assertReset
  · exact hh.keeps_inv (hs.withScript rest)
  · exact (exec_next hi).keeps_inv (hs.withScript rest)
  · exact (hs.withScript rest).illegalCommand

/-- Settles O20: X0 is the one operand register a command writes, and only a command with a result writes it. -/
theorem operandRegisterFrame : Obligations.OperandRegisterFrame := by
  intro i s t h
  obtain hx | ⟨hi, w, hx⟩ := (exec_next h).operands
  · exact ⟨fun k _ => by rw [hx], fun _ => hx⟩
  · refine ⟨fun k hk => ?_, fun hn => absurd hi (by simp [hn])⟩
    have hne : (0 : Nat) ≠ k.val := fun e => hk (Fin.ext e.symm)
    simp [hx, Vector.getElem_set_ne, hne]

/-- Settles O23: the shapes of BTNEW and FBTNEW are the only ones that write a timing register, and none writes the host's
side of the state. -/
theorem timingAndHostSideFrame : Obligations.TimingAndHostSideFrame := fun _ _ _ h =>
  ⟨(exec_next h).bt_eq, (exec_next h).fbt_eq, (exec_next h).hostSide_eq⟩

/-- Settles O24: what writes a register with a valid bit sets that bit, the reset input apart. -/
theorem validBitsOnlyClearedByReset : Obligations.ValidBitsOnlyClearedByReset := by
  intro s t hr h
  obtain ⟨hcf, hff, hbt, hfbt⟩ := step_validKept hr h
  exact ⟨fun a => ⟨hcf a, hff a⟩, hbt, hfbt⟩

/-- Settles O6: the fetch hands the word to the decoder with the access taken off the host's sequence. -/
theorem stepRunsDecodedCommand : Obligations.StepRunsDecodedCommand := by
  intro s w i rest hs hw _
  simp only [step, fetch_command hs, hw]

/-- Settles O7: each of the three offsets reads its register, and the answer is all a read leaves. -/
theorem registerReadsAnswer : Obligations.RegisterReadsAnswer := by
  intro s rest off w hs h
  obtain ⟨hoff, rfl⟩ | ⟨hoff, rfl⟩ | ⟨i, hoff, rfl⟩ := h
  · exact step_of_done hs (read32_cmd _ hoff)
  · exact step_of_done hs (read32_status _ hoff)
  · exact step_of_done hs (read32_operand _ hoff)

/-- Settles O8: a write to an operand register is `setX`, one to STATUS leaves the state without the access. -/
theorem registerWritesStore : Obligations.RegisterWritesStore :=
  ⟨fun _ _ _ v _ hs hoff => step_of_done hs (write32_operand _ v hoff),
    fun _ _ _ v hs hoff => step_of_done hs (write32_status _ v hoff)⟩

/-- Settles O9: BUF's law of reading after a write gives the byte stored and the bytes beside it. -/
theorem bufferReadsAndWrites : Obligations.BufferReadsAndWrites := by
  refine ⟨fun s rest off j hs hoff => step_of_done hs (read8_buffer _ hoff), fun s rest off j v hs hoff => ?_⟩
  refine ⟨_, step_of_done hs (write8_buffer _ v hoff), rfl, ?_, fun k hk => ?_⟩
  · rw [State.bufByte_setBufByte, if_pos rfl]
  · rw [State.bufByte_setBufByte, if_neg hk]; rfl

/-- Settles O10: each field of STATUS is read back from its place in the concatenation. -/
theorem statusWordLayout : Obligations.StatusWordLayout := by
  intro s
  refine ⟨?_, ?_, s.status_getLsbD 8, s.status_getLsbD 9, s.status_getLsbD 10, s.status_getLsbD 11, s.status_getLsbD 12,
    s.status_getLsbD 13, ?_⟩
  · ext k hk
    simp [State.status_getLsbD, hk]
  · ext k hk
    simp [State.status_getLsbD, hk]
  · ext k hk
    rw [BitVec.getElem_extractLsb', State.status_getLsbD]
    iterate 8 rw [if_neg (by omega)]
    simp

/-- Settles O13: the values stand in the definition of the state after reset. -/
theorem resetStateValues : Obligations.ResetStateValues := by
  refine ⟨fun i => by fin_cases i <;> rfl, rfl, rfl, by decide, fun a => ?_, rfl, rfl⟩
  fin_cases a <;> exact ⟨rfl, rfl⟩

/-- Settles O14: the reset state meets each clause of the invariant. -/
theorem resetMeetsInvariant : Obligations.ResetMeetsInvariant := State.reset_inv

end Sys2Proof.Machine

/-! PROOF. The statements of spec/20_memory.md: which accesses of the host the bus refuses (R53, R54) and which bytes of BUF a
command may change (R58). -/

namespace Sys2Proof.Machine

/-! ### The accesses outside the legal set -/

/-- R52: no byte of BUF lies in the lower half of the window. -/
theorem bufferAt_of_lt {off : BitVec 8} (h : off.toNat < 0x80) : bufferAt off = none := if_neg (by omega)

/-- R52: an offset that is illegal for a 32-bit access is that of no register. -/
theorem illegalWordOffset_cases {off : BitVec 8}
    (h : ¬ (off.toNat = 0x00 ∨ off.toNat = 0x04 ∨ ∃ i : Fin 8, off.toNat = 0x20 + 4 * i.val)) :
    off ≠ cmdOffset ∧ off ≠ statusOffset ∧ operandAt off = none := by
  obtain ⟨hcmd, hstatus, hoperand⟩ : off.toNat ≠ 0x00 ∧ off.toNat ≠ 0x04 ∧ ∀ i : Fin 8, off.toNat ≠ 0x20 + 4 * i.val := by
    simpa only [not_or, not_exists] using h
  exact ⟨fun e => hcmd (congrArg BitVec.toNat e), fun e => hstatus (congrArg BitVec.toNat e), operandAt_none hoperand⟩

/-- R54: the bus answers no access outside the legal set. -/
theorem hostEvent_of_illegal {e : HostEvent} (h : ¬ legalEvent e) (s : State) : hostEvent s e = .illegal e := by
  cases e with
  | read8 off => simp only [hostEvent, read8, bufferAt_of_lt (Nat.lt_of_not_le h)]
  | write8 off v => simp only [hostEvent, write8, bufferAt_of_lt (Nat.lt_of_not_le h)]
  | read16 off => rfl
  | write16 off v => rfl
  | read32 off =>
    obtain ⟨hcmd, hstatus, hoperand⟩ := illegalWordOffset_cases h
    simp only [hostEvent, read32, if_neg hcmd, if_neg hstatus, hoperand]
  | write32 off v =>
    obtain ⟨hcmd, hstatus, hoperand⟩ := illegalWordOffset_cases h
    simp only [hostEvent, write32, if_neg hcmd, if_neg hstatus, hoperand]
  | reset => exact absurd trivial h

/-- R54: a step whose next event is an illegal access is a bus error. -/
theorem step_of_illegal {s : State} {e : HostEvent} {rest : List HostEvent} (hs : s.script = e :: rest)
    (h : ¬ legalEvent e) : step s = .refused (.busError e) := by
  simp only [step, fetch, hs, hostEvent_of_illegal h]

/-- R53: a step whose next event is legal is not refused; a fault of a command is no refusal, so no invariant is needed. -/
theorem step_not_refused_of_legal {s : State} {e : HostEvent} {rest : List HostEvent} (hs : s.script = e :: rest)
    (h : legalEvent e) (r : Refusal) : step s ≠ .refused r := by
  obtain ⟨t, ht⟩ | ⟨w, hw⟩ := hostEvent_of_legal h { s with script := rest }
  · rw [step_of_done hs ht]
    exact nofun
  · simp only [step, fetch, hs, hw]
    split
    · exact exec_not_refused _ _ r
    · exact nofun

/-! ### The bytes of BUF a command may change -/

/-- A byte string written at the start of BUF leaves the bytes past its end. -/
theorem State.bufByte_writeBuf_of_length_le {bs : List Byte} {j : Nat} (h : bs.length ≤ j) (s : State) :
    (s.writeBuf 0 bs).bufByte j = s.bufByte j := by
  simp [State.bufByte_writeBuf, List.getElem?_eq_none h]

/-- R58: what a command stores in BUF starts at BUF[0] and is at most `bufWritten` bytes long. -/
theorem Shape.bufByte_eq {i : Instr} {s t : State} (h : Shape i s t) {j : Nat} (hj : bufWritten s i ≤ j) :
    t.bufByte j = s.bufByte j := by
  cases h with
  | viewed bs w _ hb => exact State.bufByte_writeBuf_of_length_le (hb.trans hj) s
  | stored bs hb => exact State.bufByte_writeBuf_of_length_le (hb.trans hj) s
  | _ => rfl

/-! ### The obligations -/

/-- Settles O11: the bus answers the legal accesses and no other, and neither a command nor an undecodable word is refused. -/
theorem illegalAccessRefusedExactly : Obligations.IllegalAccessRefusedExactly := by
  intro s e rest hs
  refine ⟨⟨?_, fun h => ⟨_, step_of_illegal hs h⟩⟩, step_of_illegal hs⟩
  rintro ⟨r, hr⟩ hlegal
  exact step_not_refused_of_legal hs hlegal r hr

/-- Settles O21: of the shapes of a command's next state only those that store a byte string touch BUF. -/
theorem bufferFrame : Obligations.BufferFrame := fun _ _ _ h _ hj => (exec_next h).bufByte_eq hj

end Sys2Proof.Machine

/-! PROOF. The statements of spec/30_encoding.md: a word and its field record say the same (R70), a well-formed record is that
of one command (R71, R73, R74), a row of the opcode table is an opcode with the bits its format fixes (R72), and a command writes
the slots R76 gives it. -/

namespace Sys2Proof
open Machine

/-! ### A word and its field record say the same (R70) -/

theorem bitWord_getLsbD (b : Bool) (k : Nat) : (bitWord b).getLsbD k = (decide (k = 0) && b) := by
  cases b <;> simp [bitWord]

/-- R70, R78: the bits of a field record's word. -/
theorem Fields.toWord_getLsbD (f : Fields) {k : Nat} (hk : k < 32) : f.toWord.getLsbD k =
    if k < 8 then f.op.getLsbD k else if k = 8 then f.a else if k = 9 then f.b else if k = 10 then f.ext
    else if k = 11 then f.fd else if k = 12 then f.brs else f.reserved.getLsbD (k - 13) := by
  simp only [Fields.toWord, BitVec.getLsbD_or, BitVec.getLsbD_shiftLeft, BitVec.getLsbD_setWidth, bitWord_getLsbD, hk,
    decide_true, Bool.true_and]
  by_cases hop : k < 8
  · have hlt (n : Nat) (hn : 8 ≤ n) : k < n := by omega
    simp [hop, hlt]
  · rw [BitVec.getLsbD_of_ge f.op k (by omega)]
    obtain rfl | rfl | rfl | rfl | rfl | hres : k = 8 ∨ k = 9 ∨ k = 10 ∨ k = 11 ∨ k = 12 ∨ 13 ≤ k := by omega
    iterate 5 · simp
    have hbit (n : Nat) (hn : n < 13) : k ≠ n ∧ ¬ k - n = 0 := by omega
    simp [hbit, hop, hres.not_gt, show k - 13 < 32 by omega]

/-- R70: the fields of the word built from a record are the record. -/
theorem Fields.ofWord_toWord (f : Fields) : Fields.ofWord f.toWord = f := by
  have hop : f.toWord.extractLsb' 0 8 = f.op := BitVec.eq_of_getLsbD_eq fun k hk => by
    rw [BitVec.getLsbD_extractLsb', Fields.toWord_getLsbD f (by omega)]
    simp [hk]
  have hreserved : f.toWord.extractLsb' 13 19 = f.reserved := BitVec.eq_of_getLsbD_eq fun k hk => by
    rw [BitVec.getLsbD_extractLsb', Fields.toWord_getLsbD f (by omega)]
    iterate 6 rw [if_neg (by omega)]
    simp [hk]
  rw [Fields.ofWord, hop, hreserved]
  iterate 5 rw [Fields.toWord_getLsbD f (by omega)]
  rfl

/-- R70: the fields of a word give the word back, so no bit of it is lost. -/
theorem Fields.toWord_ofWord (w : Word) : (Fields.ofWord w).toWord = w := by
  refine BitVec.eq_of_getLsbD_eq fun k hk => ?_
  rw [Fields.toWord_getLsbD _ hk]
  simp only [Fields.ofWord, BitVec.getLsbD_extractLsb']
  split_ifs with hop
  · simp [hop]
  iterate 5 subst k; rfl
  simp [show k - 13 < 19 by omega, show 13 + (k - 13) = k by omega]

/-! ### A well-formed field record is that of exactly one command (R71, R73, R74) -/

/-- R74: a record decodes to the command it stands for exactly when it is well formed for the format of its opcode. -/
theorem decodeFields_ok_iff {f : Fields} {i : Instr} : decodeFields f = .ok i ↔
    ∃ fmt, formatOf f.op = some fmt ∧ f.wellFormed fmt = true ∧ f.instr = some i := by
  cases hfmt : formatOf f.op with
  | none => simp [decodeFields, hfmt]
  | some fmt =>
    cases hinstr : f.instr with
    | none => simp [decodeFields, hfmt, hinstr]
    | some j =>
      cases hr : f.reservedZero <;> cases hu : f.unusedZero fmt <;>
        simp [decodeFields, hfmt, hinstr, hr, hu, Fields.wellFormed]

/-- R71: the field record with the fields kept that the format uses, and the others 0. -/
def Fields.keepUsed (f : Fields) : Format → Fields
  | .n => opFields f.op
  | .a => { opFields f.op with a := f.a }
  | .ab => { opFields f.op with a := f.a, b := f.b }
  | .am => { opFields f.op with a := f.a, ext := f.ext }
  | .amf => { opFields f.op with a := f.a, ext := f.ext, fd := f.fd, brs := f.brs }

/-- R71: in a well-formed record there is nothing but the fields its format uses. -/
theorem Fields.keepUsed_of_wellFormed {f : Fields} {fmt : Format} (h : f.wellFormed fmt = true) : f.keepUsed fmt = f := by
  obtain ⟨op, a, b, ext, fd, brs, reserved⟩ := f
  revert h
  cases fmt <;> simp +contextual [Fields.wellFormed, Fields.reservedZero, Fields.unusedZero, Fields.keepUsed, opFields]

theorem slotBit_slotOf (b : Bool) : slotBit (slotOf b) = b := by cases b <;> rfl

theorem modeBit_modeOf (b : Bool) : modeBit (modeOf b) = b := by cases b <;> rfl

/-- R73: the command a record stands for is one of the record's opcode. -/
theorem Fields.instr_op {f : Fields} {i : Instr} (h : f.instr = some i) : i.fields.op = f.op := by
  unfold Fields.instr at h
  split at h <;> cases h
  all_goals
    next hop => exact BitVec.eq_of_toNat_eq hop.symm

/-- R73, R76, R78: the command a record stands for has the record's opcode, and its arguments are the fields the format uses. -/
theorem Fields.fields_of_instr {f : Fields} {i : Instr} {fmt : Format} (hi : f.instr = some i)
    (hfmt : formatOf f.op = some fmt) : i.fields = f.keepUsed fmt := by
  have hop := Fields.instr_op hi
  rw [← hop] at hfmt
  unfold Fields.instr at hi
  split at hi <;> cases hi
  all_goals
    cases hfmt
    simp only [Fields.keepUsed, ← hop, Instr.fields, slotFields, opFields, slotBit_slotOf, modeBit_modeOf]

/-- R73: every record with the opcode of some command stands for a command, whatever its other fields. -/
theorem Fields.exists_instr {f : Fields} {j : Instr} (h : f.op = j.fields.op) : ∃ i, f.instr = some i := by
  obtain ⟨op, a, b, ext, fd, brs, reserved⟩ := f
  subst h
  cases j <;> exact ⟨_, rfl⟩

/-- R74: a record that decodes to a command is that command's own record. -/
theorem Fields.fields_of_decode {f : Fields} {i : Instr} (h : decodeFields f = .ok i) : i.fields = f := by
  obtain ⟨fmt, hfmt, hwf, hi⟩ := decodeFields_ok_iff.mp h
  rw [Fields.fields_of_instr hi hfmt, Fields.keepUsed_of_wellFormed hwf]

/-- R71, R73: the law of each command, for all commands. -/
theorem Instr.encoding : ∀ i : Instr, Laws.Encoding.Statement i
  | .nop => Laws.Encoding.nop
  | .cfnew a mode => Laws.Encoding.cfnew a mode
  | .cfid a => Laws.Encoding.cfid a
  | .cfstd a => Laws.Encoding.cfstd a
  | .cfext a => Laws.Encoding.cfext a
  | .cflen a => Laws.Encoding.cflen a
  | .cfdata a => Laws.Encoding.cfdata a
  | .cfwr a => Laws.Encoding.cfwr a
  | .cfeq a b => Laws.Encoding.cfeq a b
  | .cfld a => Laws.Encoding.cfld a
  | .cfst a => Laws.Encoding.cfst a
  | .ffnew a mode fd brs => Laws.Encoding.ffnew a mode fd brs
  | .ffid a => Laws.Encoding.ffid a
  | .ffstd a => Laws.Encoding.ffstd a
  | .ffext a => Laws.Encoding.ffext a
  | .fflen a => Laws.Encoding.fflen a
  | .ffdata a => Laws.Encoding.ffdata a
  | .ffwr a => Laws.Encoding.ffwr a
  | .ffeq a b => Laws.Encoding.ffeq a b
  | .ffld a => Laws.Encoding.ffld a
  | .ffst a => Laws.Encoding.ffst a
  | .ffdlc a => Laws.Encoding.ffdlc a
  | .fffd a => Laws.Encoding.fffd a
  | .ffbrs a => Laws.Encoding.ffbrs a
  | .dlcenc => Laws.Encoding.dlcenc
  | .dlcdec => Laws.Encoding.dlcdec
  | .btnew => Laws.Encoding.btnew
  | .btenc => Laws.Encoding.btenc
  | .fbtnew => Laws.Encoding.fbtnew
  | .fbtenc => Laws.Encoding.fbtenc

/-! ### The rows of the opcode table (R72) -/

/-- R72: the bits a format fixes: all but those of the fields it uses. -/
def Format.mask : Format → Word
  | .n => 0xFFFFFFFF
  | .a => 0xFFFFFEFF
  | .ab => 0xFFFFFCFF
  | .am => 0xFFFFFAFF
  | .amf => 0xFFFFE2FF

/-- R72: the record with the fields that the format uses set to 0. -/
def Fields.clearUsed (f : Fields) : Format → Fields
  | .n => f
  | .a => { f with a := false }
  | .ab => { f with a := false, b := false }
  | .am => { f with a := false, ext := false }
  | .amf => { f with a := false, ext := false, fd := false, brs := false }

/-- R72: masking a word sets the fields its format uses to 0 and keeps the opcode, the other fields and the reserved bits. -/
theorem Fields.ofWord_and_mask (w : Word) (fmt : Format) :
    Fields.ofWord (w &&& fmt.mask) = (Fields.ofWord w).clearUsed fmt := by
  have hop : fmt.mask.extractLsb' 0 8 = BitVec.allOnes 8 := by cases fmt <;> rfl
  have hreserved : fmt.mask.extractLsb' 13 19 = BitVec.allOnes 19 := by cases fmt <;> rfl
  simp only [Fields.ofWord, BitVec.extractLsb'_and, hop, hreserved, BitVec.and_allOnes, BitVec.getLsbD_and]
  cases fmt <;> simp [Fields.clearUsed, Format.mask]

/-- R71: what is left of a record without the used fields is an opcode alone exactly when the record is well formed. -/
theorem Fields.clearUsed_eq_iff {f : Fields} {fmt : Format} {op : BitVec 8} :
    f.clearUsed fmt = opFields op ↔ f.op = op ∧ f.wellFormed fmt = true := by
  obtain ⟨op', a, b, ext, fd, brs, reserved⟩ := f
  cases fmt <;> simp [Fields.clearUsed, opFields, Fields.wellFormed, Fields.reservedZero, Fields.unusedZero, and_assoc, and_comm,
    and_left_comm]

theorem opFields_toWord (op : BitVec 8) : (opFields op).toWord = op.setWidth 32 := by
  simp [Fields.toWord, opFields, bitWord]

/-- R72, R73: the row of a command holds its opcode as the match and the mask of its format. -/
theorem tableRow_eq (j : Instr) :
    ∃ fmt, formatOf j.fields.op = some fmt ∧ tableRow j = (j.fields.op.setWidth 32, fmt.mask) := by
  cases j <;> exact ⟨_, rfl, rfl⟩

/-- R73: commands of one opcode have one row. -/
theorem tableRow_eq_of_op {i j : Instr} (h : i.fields.op = j.fields.op) : tableRow i = tableRow j := by
  obtain ⟨fmt, hfmt, hi⟩ := tableRow_eq i
  obtain ⟨fmt', hfmt', hj⟩ := tableRow_eq j
  rw [h, hfmt'] at hfmt
  rw [hi, hj, h, Option.some.inj hfmt]

/-- R71, R72: a word matches a row exactly when it has the row's opcode and is well formed for the row's format. -/
theorem and_mask_eq_match_iff (w : Word) (j : Instr) : w &&& (tableRow j).2 = (tableRow j).1 ↔
    ∃ fmt, formatOf j.fields.op = some fmt ∧ (Fields.ofWord w).op = j.fields.op ∧
      (Fields.ofWord w).wellFormed fmt = true := by
  obtain ⟨fmt, hfmt, hrow⟩ := tableRow_eq j
  have inj : Function.LeftInverse Fields.toWord Fields.ofWord := Fields.toWord_ofWord
  rw [hrow, ← inj.injective.eq_iff, Fields.ofWord_and_mask, ← opFields_toWord, Fields.ofWord_toWord,
    Fields.clearUsed_eq_iff, hfmt]
  simp

/-! ### The slots a command writes (R76) -/

namespace Machine

/-- R76, R98: the classic slots after a command are as before, or its destination holds a frame that under CFWR differs from the
old one in the payload alone. -/
theorem Shape.classicSlots {i : Instr} {s t : State} (h : Shape i s t) : t.cf = s.cf ∨
    ∃ a c, writesCf a i = true ∧ (i = .cfwr a → c = { s.cf[a] with data := c.data }) ∧ t.cf = (s.setCf a c).cf := by
  cases h with
  | classicBuilt a c hw _ _ hwr => exact .inr ⟨a, c, hw, hwr, rfl⟩
  | viewed | stored => exact .inl (by simp)
  | _ => exact .inl rfl

/-- R76, R128: the same for the FD slots, FFWR being the command that replaces a payload. -/
theorem Shape.fdSlots {i : Instr} {s t : State} (h : Shape i s t) : t.ff = s.ff ∨
    ∃ a c, writesFf a i = true ∧ (i = .ffwr a → c = { s.ff[a] with data := c.data }) ∧ t.ff = (s.setFf a c).ff := by
  cases h with
  | fdBuilt a c hw _ _ hwr => exact .inr ⟨a, c, hw, hwr, rfl⟩
  | viewed | stored => exact .inl (by simp)
  | _ => exact .inl rfl

theorem Shape.cf_eq_of_not_written {i : Instr} {s t : State} (h : Shape i s t) {b : Slot} (hb : writesCf b i = false) :
    t.cf[b] = s.cf[b] := by
  obtain hcf | ⟨a, c, ha, -, hcf⟩ := h.classicSlots
  · rw [hcf]
  · have hne : a ≠ b := by rintro rfl; simp [ha] at hb
    simp only [hcf, State.setCf_getElem, if_neg hne]

theorem Shape.ff_eq_of_not_written {i : Instr} {s t : State} (h : Shape i s t) {b : Slot} (hb : writesFf b i = false) :
    t.ff[b] = s.ff[b] := by
  obtain hff | ⟨a, c, ha, -, hff⟩ := h.fdSlots
  · rw [hff]
  · have hne : a ≠ b := by rintro rfl; simp [ha] at hb
    simp only [hff, State.setFf_getElem, if_neg hne]

/-- R98: CFWR changes the payload of its slot alone. -/
theorem Shape.cfwr_payload {a : Slot} {s t : State} (h : Shape (.cfwr a) s t) :
    t.cf[a] = { s.cf[a] with data := t.cf[a].data } := by
  obtain hcf | ⟨b, c, hb, hwr, hcf⟩ := h.classicSlots
  · rw [hcf]
  · obtain rfl : a = b := by simpa [writesCf] using hb
    simpa only [hcf, State.setCf_getElem, if_true] using hwr rfl

/-- R128: FFWR changes the payload of its slot alone. -/
theorem Shape.ffwr_payload {a : Slot} {s t : State} (h : Shape (.ffwr a) s t) :
    t.ff[a] = { s.ff[a] with data := t.ff[a].data } := by
  obtain hff | ⟨b, c, hb, hwr, hff⟩ := h.fdSlots
  · rw [hff]
  · obtain rfl : a = b := by simpa [writesFf] using hb
    simpa only [hff, State.setFf_getElem, if_true] using hwr rfl

end Machine

/-! ### The obligations -/

/-- Settles O2: the word of a command gives back its field record, and the law of each command decodes the record. -/
theorem decodeOfEncode : Obligations.DecodeOfEncode := by
  intro i
  obtain ⟨hwf, hdec⟩ := i.encoding
  refine ⟨hwf, ?_⟩
  rw [decode, encode, Fields.ofWord_toWord, hdec]

/-- Settles O3: a record that decodes has nothing but the fields its command keeps, so the command's record is the word's own. -/
theorem encodeOfDecode : Obligations.EncodeOfDecode := by
  intro w i h
  rw [encode, Fields.fields_of_decode h, Fields.toWord_ofWord]

/-- Settles O4: a word matches a row exactly when its record has the row's opcode and is well formed for the row's format, and
such a record decodes to a command of that row. -/
theorem commandIffMaskMatch : Obligations.CommandIffMaskMatch := by
  intro w j
  constructor
  · rintro ⟨i, hi, hrow⟩
    obtain ⟨fmt, hfmt, hwf, -⟩ := decodeFields_ok_iff.mp hi
    rw [← hrow, and_mask_eq_match_iff, Fields.fields_of_decode hi]
    exact ⟨fmt, hfmt, rfl, hwf⟩
  · intro h
    obtain ⟨fmt, hfmt, hop, hwf⟩ := (and_mask_eq_match_iff w j).mp h
    obtain ⟨i, hi⟩ := Fields.exists_instr hop
    exact ⟨i, decodeFields_ok_iff.mpr ⟨fmt, hop ▸ hfmt, hwf, hi⟩,
      tableRow_eq_of_op ((Fields.instr_op hi).trans hop)⟩

/-- Settles O22: a command's next state has a shape, and each shape writes no slot but the destination. -/
theorem slotFrame : Obligations.SlotFrame := by
  intro i s t h
  have hs := exec_next h
  refine ⟨fun _ => hs.cf_eq_of_not_written, fun _ => hs.ff_eq_of_not_written, ?_, ?_⟩
  · rintro a rfl
    exact hs.cfwr_payload
  · rintro a rfl
    exact hs.ffwr_payload

/-- Settles O1: the decoder is evaluated on each word. -/
theorem specWordsDecode : Obligations.SpecWordsDecode := by
  unfold Obligations.SpecWordsDecode
  decide

end Sys2Proof

/-! PROOF. The statements of spec/40_classic_frame.md: what CFNEW builds and the accessors read back (R91 to R97), what CFWR
replaces (R98), and the equality of slots of both frame types (R99, R129). -/

namespace Sys2Proof.Machine

/-! ### The words of the commands with slots (R78) -/

/-- The word of format A. -/
theorem slotFields_toWord (op : BitVec 8) (a : Slot) : (slotFields op a).toWord = slotWord (op.setWidth 32) a := by
  fin_cases a <;> simp [Fields.toWord, slotFields, opFields, bitWord, slotBit, slotWord]

/-- The word of format AB. -/
theorem pairFields_toWord (op : BitVec 8) (a b : Slot) :
    Fields.toWord { slotFields op a with b := slotBit b } = pairWord (op.setWidth 32) a b := by
  fin_cases a <;> fin_cases b <;> simp [Fields.toWord, slotFields, opFields, bitWord, slotBit, slotWord, pairWord]

/-- The word of format AM. -/
theorem modeFields_toWord (op : BitVec 8) (a : Slot) (mode : Mode) :
    Fields.toWord { slotFields op a with ext := modeBit mode } =
      slotWord (op.setWidth 32) a ||| argBit (mode = .extended) 10 := by
  fin_cases a <;> cases mode <;>
    simp [Fields.toWord, slotFields, opFields, bitWord, slotBit, modeBit, slotWord, argBit]

/-! ### The shared shapes, for a slot whose content is known -/

section Slot
variable {s : State} {a : Slot} {c : ClassicFrame}

/-- A classic accessor answers what it reads in a valid slot. -/
theorem readClassic_of_slot (hc : s.cf[a] = c) (hv : c.v = true) (f : ClassicFrame → Word) :
    readClassic s a f = .next (s.answer (f c)) := by
  subst hc
  exact withClassic_valid hv 0 _

/-- The shape of CFDATA and CFWR on a valid slot that satisfies R29: the view has the stored length. -/
theorem withClassicView_of_slot (hc : s.cf[a] = c) (hv : c.v = true) (hl : c.len.toNat ≤ 8)
    (k : ClassicFrame → Nat → Result) :
    (withClassic s a 0 fun c => withClassicLength c (k c)) = k c c.len.toNat := by
  subst hc
  rw [withClassic_valid hv, withClassicLength_of_le hl]

end Slot

/-- R207: a command raises InvalidSource when the register it reads, or the first of two, is not valid. -/
theorem exec_of_sourceInvalid {i : Instr} {s : State} (h : sourceInvalid s i) :
    exec i s = .next (s.raise .invalidSource 0) := by
  cases i with
  | cfid a | cfstd a | cfext a | cflen a =>
    simp only [exec, execCfid, execCfstd, execCfext, execCflen]
    exact withClassic_invalid h 0 _
  | cfdata a | cfwr a | cfeq a b | cfst a =>
    simp only [exec, execCfdata, execCfwr, execCfeq, execCfst]
    exact withClassic_invalid h 0 _
  | ffid a | ffstd a | ffext a | ffdlc a | fffd a | ffbrs a =>
    simp only [exec, execFfid, execFfstd, execFfext, execFfdlc, execFffd, execFfbrs]
    exact withFd_invalid h 0 _
  | fflen a | ffdata a | ffwr a | ffeq a b | ffst a =>
    simp only [exec, execFflen, execFfdata, execFfwr, execFfeq, execFfst]
    exact withFd_invalid h 0 _
  | btenc => exact if_neg (Bool.eq_false_iff.mp h)
  | fbtenc => exact if_neg (Bool.eq_false_iff.mp h)
  | nop | cfnew | cfld | ffnew | ffld | dlcenc | dlcdec | btnew | fbtnew => exact h.elim

/-! ### The accessors and CFNEW -/

section Accessors
variable {s : State} {a : Slot} {c : ClassicFrame} (hc : s.cf[a] = c) (hv : c.v = true)
include hc hv

theorem exec_cfid_of_slot : exec (.cfid a) s = .next (s.answer (visibleId s.masks c.flags c.id)) :=
  readClassic_of_slot hc hv fun c => visibleId s.masks c.flags c.id

theorem exec_cfstd_of_slot : exec (.cfstd a) s = .next (s.answer (boolWord (!hasFlag c.flags s.masks.ext))) :=
  readClassic_of_slot hc hv fun c => boolWord (!hasFlag c.flags s.masks.ext)

theorem exec_cfext_of_slot : exec (.cfext a) s = .next (s.answer (boolWord (hasFlag c.flags s.masks.ext))) :=
  readClassic_of_slot hc hv fun c => boolWord (hasFlag c.flags s.masks.ext)

theorem exec_cflen_of_slot : exec (.cflen a) s = .next (s.answer (c.len.setWidth 32)) :=
  readClassic_of_slot hc hv fun c => c.len.setWidth 32

end Accessors

section Cfnew
variable {s : State} (a : Slot) (mode : Mode)

theorem exec_cfnew_of_le (h : s.x[2].toNat ≤ 8) :
    exec (.cfnew a mode) s = .next (s.setCf a (newClassic s mode s.x[2].toNat)).ok :=
  congrArg Host.Outcome.next (if_neg (Nat.not_lt_of_le h))

theorem exec_cfnew_of_gt (h : 8 < s.x[2].toNat) : exec (.cfnew a mode) s = .next (s.raise .frameTooLarge 0) :=
  congrArg Host.Outcome.next (if_pos h)

end Cfnew

theorem newClassic_len_toNat (s : State) (mode : Mode) {n : Nat} (h : n ≤ 8) : (newClassic s mode n).len.toNat = n :=
  Nat.mod_eq_of_lt (by omega)

theorem newClassic_data_getElem (s : State) (mode : Mode) (n : Nat) {k : Nat} (h : k < 8) :
    (newClassic s mode n).data[k] = if k < n then s.bufByte k else 0 :=
  s.payload_getElem 8 n k h

theorem classicFlags_eq (m : FlagMasks) (mode : Mode) :
    classicFlags m mode = if mode = .extended then m.ext else 0 := by cases mode <;> rfl

theorem classicFlags_eq_fdFlags (m : FlagMasks) (mode : Mode) : classicFlags m mode = fdFlags m mode false false := by
  simp [classicFlags, fdFlags, flagIf]

/-- R92: the mode CFNEW stores is the one requested. -/
theorem storedMode_classicFlags {m : FlagMasks} (hm : m.wellFormed = true) (mode : Mode) :
    storedMode m (classicFlags m mode) = mode := by
  obtain ⟨-, -, hext⟩ := fdFlags_hasFlag hm mode false false
  rw [storedMode, classicFlags_eq_fdFlags, hext]
  cases mode <;> rfl

/-- R92: the second masking changes nothing. -/
theorem visibleId_newClassic {s : State} (hm : s.masks.wellFormed = true) (mode : Mode) (n : Nat) :
    visibleId s.masks (newClassic s mode n).flags (newClassic s mode n).id = s.x[0] &&& idMask mode := by
  simp only [newClassic, visibleId, storedMode_classicFlags hm, BitVec.and_assoc, BitVec.and_self]

/-! ### CFDATA -/

/-- A view written at the start of BUF reads back. -/
theorem State.bufByte_writeBuf_view (s : State) {cap : Nat} (d : Vector Byte cap) {n k : Nat} (hk : k < n) (h : k < cap) :
    (s.writeBuf 0 (view d n)).bufByte k = d[k] := by
  rw [State.bufByte_writeBuf_zero, view_getElem? d hk h, Option.getD_some]

/-- Past the end of the view BUF keeps its bytes. -/
theorem State.bufByte_writeBuf_view_of_le (s : State) {cap : Nat} (d : Vector Byte cap) {n j : Nat} (h : n ≤ j) :
    (s.writeBuf 0 (view d n)).bufByte j = s.bufByte j :=
  State.bufByte_writeBuf_of_length_le (by rw [view_length]; omega) s

theorem exec_cfdata_of_slot {s : State} {a : Slot} {c : ClassicFrame} (hc : s.cf[a] = c) (hv : c.v = true)
    (hl : c.len.toNat ≤ 8) :
    exec (.cfdata a) s = .next ((s.writeBuf 0 (view c.data c.len.toNat)).answer (c.len.setWidth 32)) := by
  rw [exec, execCfdata, withClassicView_of_slot hc hv hl, BitVec.ofNat_toNat]

/-! ### CFWR -/

theorem exec_cfwr_of_slot {s : State} {a : Slot} {c : ClassicFrame} (hc : s.cf[a] = c) (hv : c.v = true)
    (hl : c.len.toNat ≤ 8) :
    exec (.cfwr a) s = .next (s.setCf a { c with data := s.overwrite c.data c.len.toNat }).ok := by
  rw [exec, execCfwr, withClassicView_of_slot hc hv hl]

/-! ### The equality of slots (R99, R129) -/

/-- R99: what CFEQ answers for two valid slots. -/
def sameClassic (c d : ClassicFrame) : Bool := sameClassicHeader c d && sameView c.data d.data c.len.toNat

/-- R129: what FFEQ answers for two valid slots. -/
def sameFd (c d : FdFrame) : Bool := sameFdHeader c d && sameView c.data d.data ((dlcLen c.dlc.toNat).getD 0)

theorem sameClassic_iff {c d : ClassicFrame} : sameClassic c d = true ↔ c.id = d.id ∧ c.len = d.len ∧ c.flags = d.flags ∧
    ∀ k (h : k < 8), k < c.len.toNat → c.data[k] = d.data[k] := by
  simp only [sameClassic, sameClassicHeader, Bool.and_eq_true, beq_iff_eq, sameView_iff, and_assoc]

theorem sameFd_iff {c d : FdFrame} : sameFd c d = true ↔ c.id = d.id ∧ c.dlc = d.dlc ∧ c.flags = d.flags ∧
    ∀ k (h : k < 64), k < (dlcLen c.dlc.toNat).getD 0 → c.data[k] = d.data[k] := by
  simp only [sameFd, sameFdHeader, Bool.and_eq_true, beq_iff_eq, sameView_iff, and_assoc]

theorem sameClassic_refl (c : ClassicFrame) : sameClassic c c = true :=
  sameClassic_iff.mpr ⟨rfl, rfl, rfl, fun _ _ _ => rfl⟩

theorem sameFd_refl (c : FdFrame) : sameFd c c = true := sameFd_iff.mpr ⟨rfl, rfl, rfl, fun _ _ _ => rfl⟩

theorem sameClassic_symm {c d : ClassicFrame} (h : sameClassic c d = true) : sameClassic d c = true := by
  obtain ⟨hid, hlen, hflags, hdata⟩ := sameClassic_iff.mp h
  exact sameClassic_iff.mpr ⟨hid.symm, hlen.symm, hflags.symm, fun k h8 hk => (hdata k h8 (hlen ▸ hk)).symm⟩

theorem sameFd_symm {c d : FdFrame} (h : sameFd c d = true) : sameFd d c = true := by
  obtain ⟨hid, hdlc, hflags, hdata⟩ := sameFd_iff.mp h
  exact sameFd_iff.mpr ⟨hid.symm, hdlc.symm, hflags.symm, fun k h64 hk => (hdata k h64 (hdlc ▸ hk)).symm⟩

theorem sameClassic_comm (c d : ClassicFrame) : sameClassic c d = sameClassic d c :=
  Bool.eq_iff_iff.mpr ⟨sameClassic_symm, sameClassic_symm⟩

theorem sameFd_comm (c d : FdFrame) : sameFd c d = sameFd d c := Bool.eq_iff_iff.mpr ⟨sameFd_symm, sameFd_symm⟩

/-- R99: CFEQ on two valid slots. -/
theorem exec_cfeq_of_valid {s : State} {a b : Slot} (ha : s.cf[a].v = true) (hb : s.cf[b].v = true)
    (hl : s.cf[a].len.toNat ≤ 8) :
    exec (.cfeq a b) s = .next (s.answer (boolWord (sameClassic s.cf[a] s.cf[b]))) := by
  rw [exec, execCfeq, withClassic_valid ha, withClassic_valid hb, withClassicLength_of_le hl, sameClassic]
  cases sameClassicHeader s.cf[a] s.cf[b] <;> rfl

/-- R129: FFEQ on two valid slots. -/
theorem exec_ffeq_of_valid {s : State} {a b : Slot} (ha : s.ff[a].v = true) (hb : s.ff[b].v = true)
    (hok : s.ff[a].dlc.toNat ≤ 15) : exec (.ffeq a b) s = .next (s.answer (boolWord (sameFd s.ff[a] s.ff[b]))) := by
  obtain ⟨n, hn, -⟩ := dlcLen_isSome hok
  rw [exec, execFfeq, withFd_valid ha, withFd_valid hb, withFdLength_of_some hn, sameFd, hn]
  cases sameFdHeader s.ff[a] s.ff[b] <;> rfl

/-! ### The obligations -/

/-- Settles O34: both orders answer the one truth value of a symmetric and reflexive relation on frames. -/
theorem equalityIsSymmetric : Obligations.EqualityIsSymmetric := by
  intro s a b
  constructor
  · intro ha hb oka okb
    refine ⟨_, exec_cfeq_of_valid ha hb (oka ha), ?_, ?_⟩
    · rw [exec_cfeq_of_valid hb ha (okb hb), sameClassic_comm]
    · rintro rfl
      rw [State.answer_x0, sameClassic_refl]; rfl
  · intro ha hb oka okb
    refine ⟨_, exec_ffeq_of_valid ha hb (oka ha), ?_, ?_⟩
    · rw [exec_ffeq_of_valid hb ha (okb hb), sameFd_comm]
    · rintro rfl
      rw [State.answer_x0, sameFd_refl]; rfl

/-- Settles O35: the mode read back from the flags is the one requested, so CFID masks with the same mask a second time. -/
theorem constructedIdentifierIsMasked : Obligations.ConstructedIdentifierIsMasked := by
  intro s a mode hm hn
  refine ⟨_, _, exec_cfnew_of_le a mode hn, exec_cfid_of_slot (s.setCf_ok_self a _) rfl, ?_⟩
  rw [State.answer_x0, ← idMask_eq]
  exact visibleId_newClassic hm mode _

/-- Settles O36: CFDATA depends on the slot alone, and the view CFNEW stores ends where the given bytes do. -/
theorem classicViewShowsGivenBytes : Obligations.ClassicViewShowsGivenBytes := by
  intro s a mode hn
  refine ⟨_, exec_cfnew_of_le a mode hn, fun t' hslot => ?_⟩
  have hlen := newClassic_len_toNat s mode hn
  have hc : t'.cf[a] = newClassic s mode s.x[2].toNat := hslot.trans (s.setCf_ok_self a _)
  refine ⟨_, exec_cfdata_of_slot hc rfl (hlen.trans_le hn), ?_, fun k hk => ?_, fun j hj => ?_⟩
  · rw [State.answer_x0, ← BitVec.ofNat_toNat, hlen, BitVec.ofNat_toNat, BitVec.setWidth_eq]
  · rw [State.bufByte_answer, hlen, State.bufByte_writeBuf_view _ _ hk (by omega), newClassic_data_getElem, if_pos hk]
  · rw [State.bufByte_answer, hlen, State.bufByte_writeBuf_view_of_le _ _ hj]

/-- Settles O27: the check on X2 decides between the error and the frame, whose fields are read off. -/
theorem cfnewBuildsFrame : Obligations.CfnewBuildsFrame := by
  intro s a mode
  refine ⟨modeFields_toWord 0x10 a mode, fun hn => ?_, exec_cfnew_of_gt a mode⟩
  exact ⟨newClassic s mode s.x[2].toNat, exec_cfnew_of_le a mode hn, congrArg (s.x[0] &&& ·) (idMask_eq mode),
    classicFlags_eq s.masks mode, newClassic_len_toNat s mode hn, rfl, fun _ => newClassic_data_getElem s mode _⟩

/-- Settles O28: CFID is the classic accessor of the visible identifier. -/
theorem cfidMasksByStoredMode : Obligations.CfidMasksByStoredMode := by
  intro s a
  refine ⟨slotFields_toWord 0x11 a, fun hv => ?_, fun hv => exec_of_sourceInvalid hv⟩
  rw [exec_cfid_of_slot rfl hv, visibleId_eq, State.answer_eq]

/-- Settles O29: CFSTD and CFEXT are the classic accessors of the mode flag and of its negation. -/
theorem cfstdCfextReadModeFlag : Obligations.CfstdCfextReadModeFlag := by
  intro s a
  refine ⟨slotFields_toWord 0x12 a, slotFields_toWord 0x13 a, fun hv => ⟨?_, ?_⟩,
    fun hv => ⟨exec_of_sourceInvalid hv, exec_of_sourceInvalid hv⟩⟩
  · rw [exec_cfstd_of_slot rfl hv, boolWord_not_hasFlag, State.answer_eq]
  · rw [exec_cfext_of_slot rfl hv, boolWord_hasFlag, ite_not, State.answer_eq]

/-- Settles O30: CFLEN is the classic accessor of the stored length. -/
theorem cflenReturnsLength : Obligations.CflenReturnsLength := fun _ a =>
  ⟨slotFields_toWord 0x14 a, exec_cflen_of_slot rfl, fun hv => exec_of_sourceInvalid hv⟩

/-- Settles O31: the view is written at the start of BUF and its length is answered. -/
theorem cfdataCopiesView : Obligations.CfdataCopiesView := by
  intro s a
  refine ⟨slotFields_toWord 0x15 a, fun hv hl => ?_, fun hv => exec_of_sourceInvalid hv⟩
  exact ⟨_, exec_cfdata_of_slot rfl hv hl, s.writeBuf_answer_eq _ _,
    fun _ h8 hk => s.bufByte_writeBuf_view _ hk h8, fun _ hj => s.bufByte_writeBuf_view_of_le _ hj⟩

/-- Settles O32: the frame stored back is the old one with its payload overwritten in the view. -/
theorem cfwrReplacesView : Obligations.CfwrReplacesView := by
  intro s a
  refine ⟨slotFields_toWord 0x16 a, fun hv hl => ?_, fun hv => exec_of_sourceInvalid hv⟩
  exact ⟨_, exec_cfwr_of_slot rfl hv hl, s.overwrite_getElem s.cf[a].data s.cf[a].len.toNat⟩

/-- Settles O33: the answer is the truth value of the comparison; the first invalid slot is the one reported. -/
theorem cfeqComparesFrames : Obligations.CfeqComparesFrames := by
  intro s a b
  refine ⟨pairFields_toWord 0x17 a b, fun ha hb hl => ?_, fun hv => exec_of_sourceInvalid hv, fun ha hb => ?_⟩
  · refine ⟨_, exec_cfeq_of_valid ha hb hl, ?_, (boolWord_eq_one _).trans sameClassic_iff⟩
    cases sameClassic s.cf[a] s.cf[b]
    · exact .inl rfl
    · exact .inr rfl
  · rw [exec, execCfeq, withClassic_valid ha, withClassic_invalid hb]; rfl

end Sys2Proof.Machine

/-! PROOF. The statements of spec/41_dlc_map.md: the laws of `calcDlc` and `dlcLen` (R110, R111, R114), and the commands that
answer by them (R112, R113). -/

namespace Sys2Proof.Machine

/-! ### The two functions of the map

`calcDlc n` is at most `d` exactly when the code `d` has room for `n` bytes: the two functions form a Galois connection on their
domains. With the order of `dlcLen` it gives every law of R114. -/

theorem calcDlc_isSome_iff {n : Nat} : (calcDlc n).isSome = true ↔ n ≤ 64 := by
  rw [Option.isSome_iff_ne_none, ne_eq, calcDlc_eq_none, Nat.not_lt]

theorem dlcLen_eq_none {c : Nat} (h : 15 < c) : dlcLen c = none := List.getElem?_eq_none h

theorem dlcLen_of_lt {c : Nat} (h : c < dlcLengths.length) : dlcLen c = some dlcLengths[c] := List.getElem?_eq_getElem h

/-- R114: the representable lengths are the image of `len`. -/
theorem exists_dlcLen_iff {l : Nat} : (∃ c, dlcLen c = some l) ↔ l ∈ dlcLengths := List.mem_iff_getElem?.symm

/-- R114: `len` is strictly increasing. -/
theorem dlcLen_strictMono {c d l m : Nat} (hl : dlcLen c = some l) (hm : dlcLen d = some m) (h : c < d) : l < m := by
  have sorted : dlcLengths.Pairwise (· < ·) := by decide
  obtain ⟨hc, rfl⟩ := List.getElem?_eq_some_iff.mp hl
  obtain ⟨hd, rfl⟩ := List.getElem?_eq_some_iff.mp hm
  exact List.pairwise_iff_getElem.mp sorted c d hc hd h

theorem dlcLen_le_dlcLen_iff {c d l m : Nat} (hl : dlcLen c = some l) (hm : dlcLen d = some m) : l ≤ m ↔ c ≤ d := by
  constructor
  · intro h
    by_contra hc
    have := dlcLen_strictMono hm hl (Nat.lt_of_not_le hc)
    omega
  · intro h
    obtain h | rfl := Nat.lt_or_eq_of_le h
    · exact (dlcLen_strictMono hl hm h).le
    · exact (Option.some.inj (hl.symm.trans hm)).le

/-- The Galois connection of `calcDlc` and `dlcLen`, read off the rows of R110 and R111. -/
theorem le_dlcLen_iff_calcDlc_le {n c d m : Nat} (hc : calcDlc n = some c) (hm : dlcLen d = some m) : n ≤ m ↔ c ≤ d := by
  have rows := calcDlc_cases hc
  obtain ⟨hd, -⟩ := dlcLen_le hm
  interval_cases d <;> cases hm <;> omega

/-- R114: `calc_dlc` is monotonic. -/
theorem calcDlc_mono {m n c d : Nat} (hc : calcDlc m = some c) (hd : calcDlc n = some d) (h : m ≤ n) : c ≤ d := by
  obtain ⟨l, hl, -⟩ := dlcLen_isSome (calcDlc_le hd).2
  have hn : n ≤ l := (le_dlcLen_iff_calcDlc_le hd hl).mpr le_rfl
  exact (le_dlcLen_iff_calcDlc_le hc hl).mp (h.trans hn)

/-- R114: `calc_dlc` is inverse to `len`. -/
theorem calcDlc_of_dlcLen {c l : Nat} (hl : dlcLen c = some l) : calcDlc l = some c := by
  obtain ⟨d, hd⟩ := Option.isSome_iff_exists.mp (calcDlc_isSome_iff.mpr (dlcLen_le hl).2)
  obtain ⟨m, hm, -⟩ := dlcLen_isSome (calcDlc_le hd).2
  have hdc : d ≤ c := (le_dlcLen_iff_calcDlc_le hd hl).mp le_rfl
  have hcd : c ≤ d := (dlcLen_le_dlcLen_iff hl hm).mp ((le_dlcLen_iff_calcDlc_le hd hm).mpr le_rfl)
  rw [hd, hdc.antisymm hcd]

/-- R114: the codes are the image of `calc_dlc`. -/
theorem exists_calcDlc_iff {c : Nat} : c ≤ 15 ↔ ∃ n, calcDlc n = some c := by
  constructor
  · intro h
    obtain ⟨l, hl, -⟩ := dlcLen_isSome h
    exact ⟨l, calcDlc_of_dlcLen hl⟩
  · rintro ⟨n, hn⟩
    exact (calcDlc_le hn).2

section RoundUp
variable {n c l : Nat} (hc : calcDlc n = some c) (hl : dlcLen c = some l)
include hc hl

/-- R114: the length of the code has room for the payload. -/
theorem le_dlcLen_calcDlc : n ≤ l := (le_dlcLen_iff_calcDlc_le hc hl).mpr le_rfl

/-- R114: no smaller representable length has. -/
theorem dlcLen_calcDlc_le {r : Nat} (hr : r ∈ dlcLengths) (h : n ≤ r) : l ≤ r := by
  obtain ⟨d, hd⟩ := exists_dlcLen_iff.mpr hr
  exact (dlcLen_le_dlcLen_iff hl hd).mpr ((le_dlcLen_iff_calcDlc_le hc hd).mp h)

/-- R114: exactly the representable lengths are not rounded. -/
theorem eq_dlcLen_calcDlc_iff : n = l ↔ n ∈ dlcLengths := by
  constructor
  · rintro rfl
    exact exists_dlcLen_iff.mp ⟨c, hl⟩
  · exact fun hn => (le_dlcLen_calcDlc hc hl).antisymm (dlcLen_calcDlc_le hc hl hn le_rfl)

end RoundUp

/-! ### The two commands -/

theorem exec_dlcenc_of_some {s : State} {c : Nat} (h : calcDlc s.x[0].toNat = some c) :
    exec .dlcenc s = .next (s.answer (BitVec.ofNat 32 c)) := by simp only [exec, execDlcenc, h]

theorem exec_dlcenc_of_none {s : State} (h : calcDlc s.x[0].toNat = none) :
    exec .dlcenc s = .next (s.raise .frameTooLarge 0) := by simp only [exec, execDlcenc, h]

theorem exec_dlcdec_of_some {s : State} {l : Nat} (h : dlcLen s.x[0].toNat = some l) :
    exec .dlcdec s = .next (s.answer (BitVec.ofNat 32 l)) := by simp only [exec, execDlcdec, h]

theorem exec_dlcdec_of_none {s : State} (h : dlcLen s.x[0].toNat = none) :
    exec .dlcdec s = .next (s.raise .lengthCodeInvalid 0) := by simp only [exec, execDlcdec, h]

/-- R113: what DLCDEC answers for a code is the entry of R111's table as a word. -/
theorem exec_dlcdec_of_lt {s : State} (h : s.x[0].toNat < (dlcLengths.map (BitVec.ofNat 32)).length) :
    exec .dlcdec s = .next (s.answer (dlcLengths.map (BitVec.ofNat 32))[s.x[0].toNat]) := by
  rw [List.getElem_map]
  exact exec_dlcdec_of_some (dlcLen_of_lt _)

/-! ### The obligations -/

/-- Settles O53: each law by its lemma, all of them from the Galois connection of the two functions. -/
theorem dlcMapLaws : Obligations.DlcMapLaws := by
  refine ⟨fun _ _ _ _ => calcDlc_mono, rfl, rfl, fun _ => calcDlc_isSome_iff, fun _ => exists_calcDlc_iff,
    fun _ _ _ _ => dlcLen_strictMono, fun _ => exists_dlcLen_iff, fun c h => ?_, fun n c l hc hl => ?_⟩
  · obtain ⟨l, hl, -⟩ := dlcLen_isSome h
    rw [hl, Option.bind_some, calcDlc_of_dlcLen hl]
  · exact ⟨le_dlcLen_calcDlc hc hl, eq_dlcLen_calcDlc_iff hc hl, fun _ => dlcLen_calcDlc_le hc hl⟩

/-- Settles O51: a length with a code is answered by its row of R110's table, one without raises. -/
theorem dlcencMapsLength : Obligations.DlcencMapsLength := by
  refine fun s => ⟨opFields_toWord 0x30, fun h => ?_, fun h => exec_dlcenc_of_none (calcDlc_eq_none.mpr h)⟩
  obtain ⟨c, hc⟩ := Option.isSome_iff_exists.mp (calcDlc_isSome_iff.mpr h)
  refine ⟨c, exec_dlcenc_of_some hc, ?_⟩
  have rows := calcDlc_cases hc
  refine ⟨?_, ?_, ?_, ?_, ?_, ?_, ?_, ?_⟩ <;> omega

/-- Settles O52: a code with a length is answered by its entry of R111's table, one without raises. -/
theorem dlcdecMapsCode : Obligations.DlcdecMapsCode := by
  exact fun s => ⟨opFields_toWord 0x31, fun h => exec_dlcdec_of_lt h, fun h => exec_dlcdec_of_none (dlcLen_eq_none h)⟩

end Sys2Proof.Machine

/-! PROOF. The statements of spec/42_fd_frame.md: what FFNEW builds and how its length grows (R121, R122), the accessors (R123 to
R127, R130 to R132), what FFWR replaces (R128) and what FFEQ compares (R129). -/

namespace Sys2Proof.Machine

theorem bitWord_shiftLeft (b : Bool) (k : Nat) : bitWord b <<< k = argBit (b = true) k := by
  cases b
  · exact BitVec.zero_shiftLeft k
  · rfl

/-- The word of format AMF: that of format AM with the two flags beside it. -/
theorem flagFields_toWord (op : BitVec 8) (a : Slot) (mode : Mode) (fd brs : Bool) :
    Fields.toWord { slotFields op a with ext := modeBit mode, fd := fd, brs := brs } =
      slotWord (op.setWidth 32) a ||| argBit (mode = .extended) 10 ||| argBit (fd = true) 11 |||
        argBit (brs = true) 12 := by
  have hsplit : Fields.toWord { slotFields op a with ext := modeBit mode, fd := fd, brs := brs } =
      Fields.toWord { slotFields op a with ext := modeBit mode } ||| bitWord fd <<< 11 ||| bitWord brs <<< 12 := by
    simp [Fields.toWord, slotFields, opFields, bitWord]
  rw [hsplit, modeFields_toWord, bitWord_shiftLeft, bitWord_shiftLeft]

/-! ### The commands on an FD slot whose content is known -/

section FdSlot
variable {s : State} {a : Slot} {c : FdFrame} (hc : s.ff[a] = c) (hv : c.v = true)
include hc hv

/-- An FD accessor answers what it reads in a valid slot. -/
theorem readFd_of_slot (f : FdFrame → Word) : readFd s a f = .next (s.answer (f c)) := by
  subst hc
  exact withFd_valid hv 0 _

theorem exec_ffid_of_slot : exec (.ffid a) s = .next (s.answer (visibleId s.masks c.flags c.id)) :=
  readFd_of_slot hc hv fun c => visibleId s.masks c.flags c.id

theorem exec_ffstd_of_slot : exec (.ffstd a) s = .next (s.answer (boolWord (!hasFlag c.flags s.masks.ext))) :=
  readFd_of_slot hc hv fun c => boolWord (!hasFlag c.flags s.masks.ext)

theorem exec_ffext_of_slot : exec (.ffext a) s = .next (s.answer (boolWord (hasFlag c.flags s.masks.ext))) :=
  readFd_of_slot hc hv fun c => boolWord (hasFlag c.flags s.masks.ext)

theorem exec_ffdlc_of_slot : exec (.ffdlc a) s = .next (s.answer (c.dlc.setWidth 32)) :=
  readFd_of_slot hc hv fun c => c.dlc.setWidth 32

theorem exec_fffd_of_slot : exec (.fffd a) s = .next (s.answer (boolWord (hasFlag c.flags s.masks.fd))) :=
  readFd_of_slot hc hv fun c => boolWord (hasFlag c.flags s.masks.fd)

theorem exec_ffbrs_of_slot : exec (.ffbrs a) s = .next (s.answer (boolWord (hasFlag c.flags s.masks.brs))) :=
  readFd_of_slot hc hv fun c => boolWord (hasFlag c.flags s.masks.brs)

section View
variable {n : Nat} (hn : dlcLen c.dlc.toNat = some n)
include hn

/-- The shape of FFLEN, FFDATA and FFWR on a valid slot that satisfies R31: the view has the length of the stored code. -/
theorem withFdView_of_slot (k : FdFrame → Nat → Result) : (withFd s a 0 fun c => withFdLength c (k c)) = k c n := by
  subst hc
  rw [withFd_valid hv, withFdLength_of_some hn]

theorem exec_fflen_of_slot : exec (.fflen a) s = .next (s.answer (BitVec.ofNat 32 n)) :=
  withFdView_of_slot hc hv hn fun _ n => .next (s.answer (BitVec.ofNat 32 n))

theorem exec_ffdata_of_slot :
    exec (.ffdata a) s = .next ((s.writeBuf 0 (view c.data n)).answer (BitVec.ofNat 32 n)) :=
  withFdView_of_slot hc hv hn fun c n => .next ((s.writeBuf 0 (view c.data n)).answer (BitVec.ofNat 32 n))

theorem exec_ffwr_of_slot : exec (.ffwr a) s = .next (s.setFf a { c with data := s.overwrite c.data n }).ok :=
  withFdView_of_slot hc hv hn fun c n => .next (s.setFf a { c with data := s.overwrite c.data n }).ok

end View

end FdSlot

/-! ### FFNEW -/

section Ffnew
variable {s : State} (a : Slot) (mode : Mode) (fd brs : Bool)

theorem exec_ffnew_of_some {code : Nat} (h : calcDlc s.x[2].toNat = some code) :
    exec (.ffnew a mode fd brs) s = .next (s.setFf a (newFd s mode fd brs s.x[2].toNat code)).ok := by
  simp only [exec, execFfnew, h]

theorem exec_ffnew_of_gt (h : 64 < s.x[2].toNat) : exec (.ffnew a mode fd brs) s = .next (s.raise .frameTooLarge 0) := by
  simp only [exec, execFfnew, calcDlc_eq_none.mpr h]

end Ffnew

/-- The stored byte is the code itself. -/
theorem newFd_dlc_toNat (s : State) (mode : Mode) (fd brs : Bool) {n code : Nat} (h : calcDlc n = some code) :
    (newFd s mode fd brs n code).dlc.toNat = code :=
  Nat.mod_eq_of_lt ((calcDlc_le h).2.trans_lt (by decide))

theorem newFd_data_getElem (s : State) (mode : Mode) (fd brs : Bool) (n code : Nat) {k : Nat} (h : k < 64) :
    (newFd s mode fd brs n code).data[k] = if k < n then s.bufByte k else 0 :=
  s.payload_getElem 64 n k h

theorem fdFlags_eq (m : FlagMasks) (mode : Mode) (fd brs : Bool) :
    fdFlags m mode fd brs = (if mode = .extended then m.ext else 0) ||| (if fd = true then m.fd else 0) |||
      (if brs = true then m.brs else 0) := by cases mode <;> rfl

/-- A length that FFNEW accepts has a code, and that code a length: the one the frame reports (R122). -/
theorem exists_calcDlc_dlcLen {n : Nat} (h : n ≤ 64) : ∃ c l, calcDlc n = some c ∧ dlcLen c = some l := by
  obtain ⟨c, hc⟩ := Option.isSome_iff_exists.mp (calcDlc_isSome_iff.mpr h)
  obtain ⟨l, hl, -⟩ := dlcLen_isSome (calcDlc_le hc).2
  exact ⟨c, l, hc, hl⟩

/-- A length returned in X0 reads as itself. -/
theorem State.answer_dlcLen_toNat (s : State) {c l : Nat} (h : dlcLen c = some l) :
    (s.answer (BitVec.ofNat 32 l)).x[0].toNat = l := by
  rw [State.answer_x0]
  exact Nat.mod_eq_of_lt ((dlcLen_le h).2.trans_lt (by decide))

/-! ### The obligations -/

/-- Settles O49: R8's constraint keeps the three flags of the stored byte apart. -/
theorem fdFlagsRoundTrip : Obligations.FdFlagsRoundTrip := by
  intro s a mode fd brs hm hn
  obtain ⟨code, -, hcode, -⟩ := exists_calcDlc_dlcLen hn
  obtain ⟨hfd, hbrs, hext⟩ := fdFlags_hasFlag hm mode fd brs
  have hslot := s.setFf_ok_self a (newFd s mode fd brs s.x[2].toNat code)
  refine ⟨_, _, _, _, exec_ffnew_of_some a mode fd brs hcode, exec_fffd_of_slot hslot rfl, exec_ffbrs_of_slot hslot rfl,
    exec_ffext_of_slot hslot rfl, (State.answer_x0 _ _).trans (congrArg boolWord hfd),
    (State.answer_x0 _ _).trans (congrArg boolWord hbrs), (State.answer_x0 _ _).trans ((congrArg boolWord hext).trans ?_)⟩
  cases mode <;> rfl

/-- Settles O50: the stored code is the least with room for the bytes, so its length is the least representable one; the payload
beyond the given bytes is zero, and the view shows it. -/
theorem fdLengthGrowsSilently : Obligations.FdLengthGrowsSilently := by
  intro s a mode fd brs hx
  obtain ⟨code, n, hcode, hn⟩ := exists_calcDlc_dlcLen hx
  have hslot := s.setFf_ok_self a (newFd s mode fd brs s.x[2].toNat code)
  have hdlc : dlcLen (newFd s mode fd brs s.x[2].toNat code).dlc.toNat = some n := by
    rw [newFd_dlc_toNat s mode fd brs hcode, hn]
  refine ⟨_, n, exec_ffnew_of_some a mode fd brs hcode, rfl, le_dlcLen_calcDlc hcode hn, exists_dlcLen_iff.mp ⟨code, hn⟩,
    fun _ => dlcLen_calcDlc_le hcode hn, ?_, fun k hk hle => ?_,
    ⟨_, exec_fflen_of_slot hslot rfl hdlc, State.answer_dlcLen_toNat _ hn, rfl⟩,
    _, exec_ffdata_of_slot hslot rfl hdlc, State.answer_dlcLen_toNat _ hn, fun k hk => ?_⟩
  · rw [hcode, Option.bind_some, hn]
  · rw [hslot, newFd_data_getElem, if_neg (Nat.not_lt_of_le hle)]
  · have h64 : k < 64 := hk.trans_le (dlcLen_le hn).2
    rw [State.bufByte_answer, State.bufByte_writeBuf_view _ _ hk h64, newFd_data_getElem]

/-- Settles O42: a length with a code builds the frame, whose fields are read off; one without raises. -/
theorem ffnewBuildsFrame : Obligations.FfnewBuildsFrame := by
  intro s a mode fd brs
  refine ⟨flagFields_toWord 0x20 a mode fd brs, fun hn => ?_, exec_ffnew_of_gt a mode fd brs⟩
  obtain ⟨code, -, hcode, -⟩ := exists_calcDlc_dlcLen hn
  refine ⟨newFd s mode fd brs s.x[2].toNat code, exec_ffnew_of_some a mode fd brs hcode,
    congrArg (s.x[0] &&& ·) (idMask_eq mode), fdFlags_eq s.masks mode fd brs, ?_, rfl,
    fun _ => newFd_data_getElem s mode fd brs _ code⟩
  rw [newFd_dlc_toNat s mode fd brs hcode, hcode]

/-- Settles O43: each is the FD accessor of the identifier or of the mode flag. -/
theorem ffidFfstdFfextReadFrame : Obligations.FfidFfstdFfextReadFrame := by
  intro s a
  refine ⟨slotFields_toWord 0x21 a, slotFields_toWord 0x22 a, slotFields_toWord 0x23 a, fun hv => ⟨?_, ?_, ?_⟩,
    fun hv => ⟨exec_of_sourceInvalid hv, exec_of_sourceInvalid hv, exec_of_sourceInvalid hv⟩⟩
  · rw [exec_ffid_of_slot rfl hv, visibleId_eq, State.answer_eq]
  · rw [exec_ffstd_of_slot rfl hv, boolWord_not_hasFlag, State.answer_eq]
  · rw [exec_ffext_of_slot rfl hv, boolWord_hasFlag, ite_not, State.answer_eq]

/-- Settles O44: FFDLC is the FD accessor of the code, FFLEN answers the length of the view. -/
theorem fflenFfdlcReadCode : Obligations.FflenFfdlcReadCode := fun _ a =>
  ⟨slotFields_toWord 0x24 a, slotFields_toWord 0x2A a,
    fun hv => ⟨exec_ffdlc_of_slot rfl hv, fun _ => exec_fflen_of_slot rfl hv⟩,
    fun hv => ⟨exec_of_sourceInvalid hv, exec_of_sourceInvalid hv⟩⟩

/-- Settles O45: the view is written at the start of BUF and its length is answered. -/
theorem ffdataCopiesView : Obligations.FfdataCopiesView := by
  intro s a
  refine ⟨slotFields_toWord 0x25 a, fun n hv hn => ?_, fun hv => exec_of_sourceInvalid hv⟩
  exact ⟨_, exec_ffdata_of_slot rfl hv hn, s.writeBuf_answer_eq _ _,
    fun _ h64 hk => s.bufByte_writeBuf_view _ hk h64, fun _ hj => s.bufByte_writeBuf_view_of_le _ hj⟩

/-- Settles O46: the frame stored back is the old one with its payload overwritten in the view. -/
theorem ffwrReplacesView : Obligations.FfwrReplacesView := by
  intro s a
  refine ⟨slotFields_toWord 0x26 a, fun n hv hn => ?_, fun hv => exec_of_sourceInvalid hv⟩
  exact ⟨_, exec_ffwr_of_slot rfl hv hn, s.overwrite_getElem s.ff[a].data n⟩

/-- Settles O47: the answer is the truth value of the comparison; the first invalid slot is the one reported. -/
theorem ffeqComparesFrames : Obligations.FfeqComparesFrames := by
  intro s a b
  refine ⟨pairFields_toWord 0x27 a b, fun n ha hb hn => ?_, fun hv => exec_of_sourceInvalid hv, fun ha hb => ?_⟩
  · refine ⟨_, exec_ffeq_of_valid ha hb (dlcLen_le hn).1, ?_, ?_⟩
    · cases sameFd s.ff[a] s.ff[b]
      · exact .inl rfl
      · exact .inr rfl
    · rw [boolWord_eq_one, sameFd_iff, hn, Option.getD_some]
  · rw [exec, execFfeq, withFd_valid ha, withFd_invalid hb]; rfl

/-- Settles O48: FFFD and FFBRS are the FD accessors of the two flags. -/
theorem fffdFfbrsReadFlags : Obligations.FffdFfbrsReadFlags := by
  intro s a
  refine ⟨slotFields_toWord 0x2B a, slotFields_toWord 0x2C a, fun hv => ⟨?_, ?_⟩,
    fun hv => ⟨exec_of_sourceInvalid hv, exec_of_sourceInvalid hv⟩⟩
  · rw [exec_fffd_of_slot rfl hv, boolWord_hasFlag, State.answer_eq]
  · rw [exec_ffbrs_of_slot rfl hv, boolWord_hasFlag, State.answer_eq]

end Sys2Proof.Machine

/-! PROOF. The statements of spec/43_wire_image.md: the loads and stores of the two wire images (R150 to R157), and the round trips
between a slot and BUF (R158). Both images have one layout, of different payload sizes, so what BUF reads as after a store is said
once for the two frame types. -/

namespace Sys2Proof.Machine

/-! ### The layout the two images share (R150, R151) -/

/-- R150, R151: identifier, flags, the length byte or code, and the whole backing array, without gaps. -/
def imageBytes (id : Word) (flags len : Byte) {cap : Nat} (data : Vector Byte cap) : List Byte :=
  bytesLe32 id ++ [flags, len] ++ data.toList

theorem imageBytes_length (id : Word) (flags len : Byte) {cap : Nat} (data : Vector Byte cap) :
    (imageBytes id flags len data).length = 6 + cap := by
  simp [imageBytes, bytesLe32]; omega

theorem ClassicFrame.image_eq (c : ClassicFrame) : c.image = imageBytes c.id c.flags c.len c.data := rfl

theorem FdFrame.image_eq (c : FdFrame) : c.image = imageBytes c.id c.flags c.dlc c.data := rfl

/-- The image in BUF does not depend on STATUS. -/
@[simp] theorem State.imageId_ok (s : State) : s.ok.imageId = s.imageId := rfl

@[simp] theorem State.imageData_ok (s : State) (cap : Nat) : s.ok.imageData cap = s.imageData cap := rfl

/-- R56: the identifier of the image in BUF, as a sum of its bytes. -/
theorem State.imageId_toNat (s : State) : s.imageId.toNat = (s.bufByte 0).toNat + 256 * (s.bufByte 1).toNat +
    65536 * (s.bufByte 2).toNat + 16777216 * (s.bufByte 3).toNat := le32_toNat _ _ _ _

/-- R12: `le32` is the word whose `bytes_le32` are the four bytes. -/
theorem bytesLe32_le32 (b0 b1 b2 b3 : Byte) : bytesLe32 (le32 b0 b1 b2 b3) = [b0, b1, b2, b3] := by
  simp only [bytesLe32, List.cons.injEq, and_true, ← BitVec.toNat_inj, BitVec.extractLsb'_toNat,
    Nat.shiftRight_eq_div_pow, le32_toNat]
  omega

section StoredImage
variable (s : State) (id : Word) (flags len : Byte) {cap : Nat} (data : Vector Byte cap)

@[simp] theorem State.imageId_writeBuf_imageBytes : (s.writeBuf 0 (imageBytes id flags len data)).imageId = id := by
  simp only [State.imageId, State.bufByte_writeBuf_zero]
  exact le32_bytes id

@[simp] theorem State.bufByte_four_writeBuf_imageBytes :
    (s.writeBuf 0 (imageBytes id flags len data)).bufByte 4 = flags := State.bufByte_writeBuf_zero s _ 4

@[simp] theorem State.bufByte_five_writeBuf_imageBytes :
    (s.writeBuf 0 (imageBytes id flags len data)).bufByte 5 = len := State.bufByte_writeBuf_zero s _ 5

theorem State.bufByte_payload_writeBuf_imageBytes {k : Nat} (hk : k < cap) :
    (s.writeBuf 0 (imageBytes id flags len data)).bufByte (6 + k) = data[k] := by
  rw [State.bufByte_writeBuf_zero, Nat.add_comm]
  simp [imageBytes, bytesLe32, hk]

@[simp] theorem State.imageData_writeBuf_imageBytes :
    (s.writeBuf 0 (imageBytes id flags len data)).imageData cap = data :=
  Vector.ext fun k hk => (State.imageData_getElem _ cap k hk).trans (s.bufByte_payload_writeBuf_imageBytes id flags len data hk)

/-- R154, R157: a stored image reads back field by field, and the rest of the state is as before. -/
theorem State.writeBuf_imageBytes_ok {t : State} (ht : t = (s.writeBuf 0 (imageBytes id flags len data)).ok) :
    t = { s with buf := t.buf, err := 0, einfo := 0 } ∧
    (t.bufByte 0).toNat + 256 * (t.bufByte 1).toNat + 65536 * (t.bufByte 2).toNat + 16777216 * (t.bufByte 3).toNat =
      id.toNat ∧
    t.bufByte 4 = flags ∧ t.bufByte 5 = len ∧
    (∀ k (h : k < cap), t.bufByte (6 + k) = data[k]) ∧ ∀ j, 6 + cap ≤ j → t.bufByte j = s.bufByte j := by
  subst ht
  refine ⟨s.writeBuf_ok_eq _, ?_, s.bufByte_four_writeBuf_imageBytes id flags len data,
    s.bufByte_five_writeBuf_imageBytes id flags len data,
    fun _ => s.bufByte_payload_writeBuf_imageBytes id flags len data,
    fun _ hj => State.bufByte_writeBuf_of_length_le ((imageBytes_length id flags len data).trans_le hj) s⟩
  rw [← State.imageId_toNat, State.imageId_ok, State.imageId_writeBuf_imageBytes]

end StoredImage

/-- The image of the fields loaded from BUF is the string of bytes BUF begins with. -/
theorem State.imageBytes_loaded (s : State) (cap : Nat) :
    imageBytes s.imageId (s.bufByte 4) (s.bufByte 5) (s.imageData cap) = (List.range (6 + cap)).map s.bufByte := by
  have hdata : (s.imageData cap).toList = (List.range cap).map fun i => s.bufByte (6 + i) :=
    List.ext_getElem (by simp) (by simp)
  rw [imageBytes, State.imageId, bytesLe32_le32, hdata, List.range_add, List.map_append, List.map_map]
  rfl

/-- Writing the bytes BUF begins with to BUF changes no byte. -/
theorem State.bufByte_writeBuf_own {s t : State} (h : ∀ j, t.bufByte j = s.bufByte j) (n j : Nat) :
    (t.writeBuf 0 ((List.range n).map s.bufByte)).bufByte j = s.bufByte j := by
  rw [State.bufByte_writeBuf_zero, h]
  rcases lt_or_ge j n with hj | hj <;> simp [hj]

/-! ### The commands (R153 to R157) -/

section Load
variable {s : State} (a : Slot)

theorem exec_cfld_of_le (h : (s.bufByte 5).toNat ≤ 8) : exec (.cfld a) s = .next (s.setCf a (loadedClassic s)).ok :=
  congrArg Host.Outcome.next (if_neg (Nat.not_lt_of_le h))

theorem exec_cfld_of_gt (h : 8 < (s.bufByte 5).toNat) : exec (.cfld a) s = .next (s.raise .lengthCodeInvalid 0) :=
  congrArg Host.Outcome.next (if_pos h)

theorem exec_ffld_of_le (h : (s.bufByte 5).toNat ≤ 15) : exec (.ffld a) s = .next (s.setFf a (loadedFd s)).ok :=
  congrArg Host.Outcome.next (if_neg (Nat.not_lt_of_le h))

theorem exec_ffld_of_gt (h : 15 < (s.bufByte 5).toNat) : exec (.ffld a) s = .next (s.raise .lengthCodeInvalid 0) :=
  congrArg Host.Outcome.next (if_pos h)

end Load

theorem exec_cfst_of_slot {s : State} {a : Slot} {c : ClassicFrame} (hc : s.cf[a] = c) (hv : c.v = true) :
    exec (.cfst a) s = .next (s.writeBuf 0 c.image).ok := by
  subst hc
  exact withClassic_valid hv 0 fun c => .next (s.writeBuf 0 c.image).ok

theorem exec_ffst_of_slot {s : State} {a : Slot} {c : FdFrame} (hc : s.ff[a] = c) (hv : c.v = true) :
    exec (.ffst a) s = .next (s.writeBuf 0 c.image).ok := by
  subst hc
  exact withFd_valid hv 0 fun c => .next (s.writeBuf 0 c.image).ok

/-! ### Store then load, load then store (R158) -/

/-- A stored classic frame is loaded back with every field, backing bytes included. -/
theorem loadedClassic_of_stored (s : State) {c : ClassicFrame} (hv : c.v = true) :
    loadedClassic (s.writeBuf 0 c.image).ok = c := by
  obtain ⟨id, flags, len, data, v⟩ := c
  subst hv
  simp [loadedClassic, ClassicFrame.image_eq]

/-- A stored FD frame is loaded back with every field, backing bytes included. -/
theorem loadedFd_of_stored (s : State) {c : FdFrame} (hv : c.v = true) : loadedFd (s.writeBuf 0 c.image).ok = c := by
  obtain ⟨id, flags, dlc, data, v⟩ := c
  subst hv
  simp [loadedFd, FdFrame.image_eq]

/-- CFLD puts a stored frame that satisfies R29 into its slot. -/
theorem exec_cfld_of_stored (s : State) {c : ClassicFrame} (b : Slot) (hv : c.v = true) (hl : c.len.toNat ≤ 8) :
    exec (.cfld b) (s.writeBuf 0 c.image).ok = .next ((s.writeBuf 0 c.image).ok.setCf b c).ok := by
  have hload := loadedClassic_of_stored s hv
  have hlen : (s.writeBuf 0 c.image).ok.bufByte 5 = c.len := congrArg ClassicFrame.len hload
  rw [exec_cfld_of_le b (by rwa [hlen]), hload]

/-- FFLD puts a stored frame that satisfies R31 into its slot. -/
theorem exec_ffld_of_stored (s : State) {c : FdFrame} (b : Slot) (hv : c.v = true) (hok : c.dlc.toNat ≤ 15) :
    exec (.ffld b) (s.writeBuf 0 c.image).ok = .next ((s.writeBuf 0 c.image).ok.setFf b c).ok := by
  have hload := loadedFd_of_stored s hv
  have hdlc : (s.writeBuf 0 c.image).ok.bufByte 5 = c.dlc := congrArg FdFrame.dlc hload
  rw [exec_ffld_of_le b (by rwa [hdlc]), hload]

/-- R99: CFEQ answers 1 for two slots that hold one frame. -/
theorem exec_cfeq_of_same {s : State} {a b : Slot} {c : ClassicFrame} (ha : s.cf[a] = c) (hb : s.cf[b] = c)
    (hv : c.v = true) (hl : c.len.toNat ≤ 8) : exec (.cfeq a b) s = .next (s.answer 1) := by
  subst ha
  rw [exec_cfeq_of_valid hv (by rwa [hb]) hl, hb, sameClassic_refl]
  rfl

/-- R129: FFEQ answers 1 for two slots that hold one frame. -/
theorem exec_ffeq_of_same {s : State} {a b : Slot} {c : FdFrame} (ha : s.ff[a] = c) (hb : s.ff[b] = c)
    (hv : c.v = true) (hok : c.dlc.toNat ≤ 15) : exec (.ffeq a b) s = .next (s.answer 1) := by
  subst ha
  rw [exec_ffeq_of_valid hv (by rwa [hb]) hok, hb, sameFd_refl]
  rfl

/-! ### The obligations -/

/-- Settles O41: loading gives back the frame that was stored, so the two slots hold one frame; storing the loaded frame writes the
bytes BUF began with. -/
theorem imagesRoundTrip : Obligations.ImagesRoundTrip := by
  refine ⟨fun s a b hv hl => ?_, fun s a b hv hok => ?_, fun s a hl => ?_, fun s a hok => ?_⟩
  · have ha : (s.writeBuf 0 s.cf[a].image).ok.cf[a] = s.cf[a] := by simp
    have hb := (s.writeBuf 0 s.cf[a].image).ok.setCf_ok_self b s.cf[a]
    exact ⟨_, _, _, exec_cfst_of_slot rfl hv, exec_cfld_of_stored s b hv hl, rfl, hb,
      exec_cfeq_of_same (State.setCf_ok_of_eq ha) hb hv hl, State.answer_x0 _ 1⟩
  · have ha : (s.writeBuf 0 s.ff[a].image).ok.ff[a] = s.ff[a] := by simp
    have hb := (s.writeBuf 0 s.ff[a].image).ok.setFf_ok_self b s.ff[a]
    exact ⟨_, _, _, exec_ffst_of_slot rfl hv, exec_ffld_of_stored s b hv hok, rfl, hb,
      exec_ffeq_of_same (State.setFf_ok_of_eq ha) hb hv hok, State.answer_x0 _ 1⟩
  · refine ⟨_, _, exec_cfld_of_le a hl, exec_cfst_of_slot (s.setCf_ok_self a _) rfl, fun j => ?_⟩
    rw [State.bufByte_ok, ClassicFrame.image_eq, loadedClassic, State.imageBytes_loaded]
    exact State.bufByte_writeBuf_own (fun _ => rfl) _ j
  · refine ⟨_, _, exec_ffld_of_le a hok, exec_ffst_of_slot (s.setFf_ok_self a _) rfl, fun j => ?_⟩
    rw [State.bufByte_ok, FdFrame.image_eq, loadedFd, State.imageBytes_loaded]
    exact State.bufByte_writeBuf_own (fun _ => rfl) _ j

/-- Settles O37: the check on the length byte decides between the error and the frame, whose fields are read off. -/
theorem cfldLoadsImage : Obligations.CfldLoadsImage := fun s a =>
  ⟨slotFields_toWord 0x18 a,
    fun h => ⟨loadedClassic s, exec_cfld_of_le a h, s.imageId_toNat, rfl, rfl, rfl, fun _ => s.imageData_getElem 8 _⟩,
    exec_cfld_of_gt a⟩

/-- Settles O38: a valid slot's image, whose bytes are those of the shared layout, is written at the start of BUF. -/
theorem cfstStoresImage : Obligations.CfstStoresImage := fun s a =>
  ⟨slotFields_toWord 0x19 a,
    fun hv => ⟨_, exec_cfst_of_slot rfl hv,
      s.writeBuf_imageBytes_ok s.cf[a].id s.cf[a].flags s.cf[a].len s.cf[a].data rfl⟩,
    fun hv => exec_of_sourceInvalid hv⟩

/-- Settles O39: the check on the dlc byte decides between the error and the frame, whose fields are read off. -/
theorem ffldLoadsImage : Obligations.FfldLoadsImage := fun s a =>
  ⟨slotFields_toWord 0x28 a,
    fun h => ⟨loadedFd s, exec_ffld_of_le a h, s.imageId_toNat, rfl, rfl, rfl, fun _ => s.imageData_getElem 64 _⟩,
    exec_ffld_of_gt a⟩

/-- Settles O40: a valid slot's image, whose bytes are those of the shared layout, is written at the start of BUF. -/
theorem ffstStoresImage : Obligations.FfstStoresImage := fun s a =>
  ⟨slotFields_toWord 0x29 a,
    fun hv => ⟨_, exec_ffst_of_slot rfl hv,
      s.writeBuf_imageBytes_ok s.ff[a].id s.ff[a].flags s.ff[a].dlc s.ff[a].data rfl⟩,
    fun hv => exec_of_sourceInvalid hv⟩

end Sys2Proof.Machine

/-! PROOF. The statements of spec/44_classic_timing.md: the range check of a timing reports the first field out of its bounds
(R167), and the packed fields of a classic timing do not overlap (R168), so their sum determines them. -/

namespace Sys2Proof.Machine

/-! ### BTNEW (R167) -/

/-- R167, R177: a value outside its bounds, with every value before it inside, is the one the range check finds. -/
theorem firstOutOfBounds_of_first {k : Nat} {bs : List (Nat × Nat)} {vs : List Word} (hb : k < bs.length) (hv : k < vs.length)
    (hin : ∀ j (hj : j < k), within bs[j].1 bs[j].2 vs[j]) (hout : ¬ within bs[k].1 bs[k].2 vs[k]) :
    firstOutOfBounds bs vs = some k := by
  induction k generalizing bs vs with
  | zero =>
    obtain ⟨b, bs, rfl⟩ := List.exists_cons_of_length_pos hb
    obtain ⟨v, vs, rfl⟩ := List.exists_cons_of_length_pos hv
    have hbv : ¬ inBounds b v = true := mt (inBounds_iff b.1 b.2 v).mp hout
    rw [firstOutOfBounds_cons, if_neg hbv]
  | succ k ih =>
    obtain ⟨b, bs, rfl⟩ := List.exists_cons_of_length_pos (Nat.zero_lt_of_lt hb)
    obtain ⟨v, vs, rfl⟩ := List.exists_cons_of_length_pos (Nat.zero_lt_of_lt hv)
    have hrest : firstOutOfBounds bs vs = some k :=
      ih (Nat.lt_of_succ_lt_succ hb) (Nat.lt_of_succ_lt_succ hv) (fun j hj => hin (j + 1) (Nat.succ_lt_succ hj)) hout
    have hbv : inBounds b v = true := (inBounds_iff b.1 b.2 v).mpr (hin 0 k.succ_pos)
    rw [firstOutOfBounds_cons, if_pos hbv, hrest, Option.map_some]

theorem lowQuad_fields (s : State) : (lowQuad s).fields = List.ofFn fun i : Fin 4 => s.x[i.val] := rfl

/-- R166: every lower bound is 1. -/
theorem classicBounds_eq : Config.classicBounds = ([64, 4, 16, 8] : List Nat).map (1, ·) := rfl

theorem exec_btnew_of_inClassic {s : State} (h : (lowQuad s).InClassic) :
    exec .btnew s = .next (State.ok { s with bt := { q := lowQuad s, v := true } }) := by
  have hnone := Option.isNone_iff_eq_none.mp ((Quad.classicOk_iff (lowQuad s)).mpr h)
  rw [exec, execBtnew, hnone]

theorem exec_btnew_of_some {s : State} {k : Nat} (h : firstOutOfBounds Config.classicBounds (lowQuad s).fields = some k) :
    exec .btnew s = .next (s.raise .timingOutOfBounds (BitVec.ofNat 4 k)) := by
  rw [exec, execBtnew, h]

/-! ### BTENC (R168, R169) -/

theorem exec_btenc_of_inClassic {s : State} (hv : s.bt.v = true) (h : s.bt.q.InClassic) :
    exec .btenc s = .next (s.answer ((packTiming s.bt.q).setWidth 32)) := by
  rw [exec, execBtenc, if_pos hv, if_pos ((Quad.classicOk_iff _).mpr h)]

/-- A field's value less one does not wrap and loses no bits in the packed word. -/
theorem toNat_sub_one_setWidth {hi : Nat} {w : Word} (h : within 1 hi w) (hhi : hi ≤ 2 ^ 16) :
    ((w - 1).setWidth 16).toNat = w.toNat - 1 := by
  obtain ⟨hlo, hle⟩ := h
  rw [BitVec.toNat_setWidth, BitVec.toNat_sub_of_le hlo]
  exact Nat.mod_eq_of_lt (by simp; omega)

/-- A field shifted above a value that fits below it adds to that value: the two do not overlap. -/
theorem toNat_shiftLeft_or {n i : Nat} {a b : BitVec n} (ha : a.toNat * 2 ^ i < 2 ^ n) (hb : b.toNat < 2 ^ i) :
    (a <<< i ||| b).toNat = a.toNat * 2 ^ i + b.toNat := by
  rw [BitVec.toNat_or, BitVec.toNat_shiftLeft, Nat.shiftLeft_eq, Nat.mod_eq_of_lt ha, ← Nat.shiftLeft_eq,
    Nat.shiftLeft_add_eq_or_of_lt hb]

/-- R168: each field fits its width, so the packed value is the sum of the fields at their positions. -/
theorem packTiming_toNat {q : Quad} (h : q.InClassic) :
    (packTiming q).toNat = (q.sjw.toNat - 1) * 16384 + (q.prescaler.toNat - 1) * 256 + (q.tseg2.toNat - 1) * 16 +
      (q.tseg1.toNat - 1) := by
  obtain ⟨hp, hs, h1, h2⟩ := h
  have ep := toNat_sub_one_setWidth hp (by decide)
  have es := toNat_sub_one_setWidth hs (by decide)
  have e1 := toNat_sub_one_setWidth h1 (by decide)
  have e2 := toNat_sub_one_setWidth h2 (by decide)
  unfold within at hp hs h1 h2
  have low := toNat_shiftLeft_or (i := 4) (a := (q.tseg2 - 1).setWidth 16) (b := (q.tseg1 - 1).setWidth 16)
    (by omega) (by omega)
  have mid := toNat_shiftLeft_or (i := 8) (a := (q.prescaler - 1).setWidth 16) (by omega) (low.trans_lt (by omega))
  have high := toNat_shiftLeft_or (i := 14) (a := (q.sjw - 1).setWidth 16) (by omega) (mid.trans_lt (by omega))
  rw [packTiming, BitVec.or_assoc, BitVec.or_assoc, high, mid, low]
  omega

/-- R168: bit 7 is 0, since the fields below it fill at most seven bits and those above it start at bit 8. -/
theorem packTiming_getLsbD_seven {q : Quad} (h : q.InClassic) : (packTiming q).getLsbD 7 = false := by
  have hsum := packTiming_toNat h
  obtain ⟨-, -, ⟨-, h1⟩, -, h2⟩ := h
  rw [← BitVec.testBit_toNat, Nat.testBit_eq_decide_div_mod_eq, decide_eq_false_iff_not, hsum]
  omega

/-- R168: no bits are lost, so the packed value determines the timing. -/
theorem packTiming_injective {q r : Quad} (hq : q.InClassic) (hr : r.InClassic) (h : packTiming q = packTiming r) : q = r := by
  have hsum := congrArg BitVec.toNat h
  obtain ⟨pq, sq, aq, bq⟩ := q
  obtain ⟨pr, sr, ar, br⟩ := r
  simp only [packTiming_toNat hq, packTiming_toNat hr] at hsum
  simp only [Quad.InClassic, within] at hq hr
  simp only [Quad.mk.injEq, ← BitVec.toNat_inj]
  omega

/-! ### The obligations -/

/-- Settles O55: the fields of a timing in bounds are packed side by side, so the sum is the value and determines them. -/
theorem btencPacksTiming : Obligations.BtencPacksTiming :=
  ⟨rfl, fun _ hv h => exec_btenc_of_inClassic hv h, fun _ hv => exec_of_sourceInvalid hv,
    fun _ h => ⟨packTiming_toNat h, packTiming_getLsbD_seven h⟩, fun _ _ => packTiming_injective⟩

/-- Settles O54: the range check on X0 to X3 decides between the stored timing and the error, whose index is that of the first
register out of its bounds. -/
theorem btnewStoresOrReports : Obligations.BtnewStoresOrReports := by
  refine fun s => ⟨rfl, fun h0 h1 h2 h3 => exec_btnew_of_inClassic ⟨h0, h1, h2, h3⟩, fun k hk hin hout => ?_⟩
  refine exec_btnew_of_some ?_
  rw [classicBounds_eq, lowQuad_fields]
  refine firstOutOfBounds_of_first hk (by rwa [List.length_ofFn]) (fun j hj => ?_) ?_
  · simpa only [List.getElem_map, List.getElem_ofFn] using hin j hj
  · simpa only [List.getElem_map, List.getElem_ofFn] using hout

end Sys2Proof.Machine

/-! PROOF. The statements of spec/45_fd_timing.md: the range check over both phases (R177, R178), the decimal text (R181) with its
induction over the digits said once, and the descriptor of bounded length that FBTENC writes (R179, R180, R183). -/

namespace Sys2Proof.Machine

/-! ### FBTNEW (R177, R178) -/

theorem bothQuads_fields (s : State) :
    (lowQuad s).fields ++ (highQuad s).fields = List.ofFn fun i : Fin 8 => s.x[i.val] := rfl

/-- R176: every lower bound is 1. -/
theorem fdBounds_eq : fdBounds = ([1024, 128, 256, 128, 1024, 16, 32, 16] : List Nat).map (1, ·) := rfl

theorem exec_fbtnew_of_inRange {s : State} (hnom : (lowQuad s).InNominal) (hdata : (highQuad s).InData) :
    exec .fbtnew s = .next (State.ok { s with fbt := { nom := lowQuad s, data := highQuad s, v := true } }) := by
  rw [exec, execFbtnew, (fdBounds_none_iff _ _).mpr ⟨hnom, hdata⟩]

theorem exec_fbtnew_of_some {s : State} {k : Nat}
    (h : firstOutOfBounds fdBounds ((lowQuad s).fields ++ (highQuad s).fields) = some k) :
    exec .fbtnew s = .next (s.raise .timingOutOfBounds (BitVec.ofNat 4 k)) := by
  rw [exec, execFbtnew, h]

/-! ### The decimal text (R181) -/

theorem decDigits_of_lt {v : Nat} (h : v < 10) (fuel : Nat) : decDigits fuel v = [BitVec.ofNat 8 (0x30 + v)] := by
  cases fuel with
  | zero => rw [decDigits, Nat.mod_eq_of_lt h]
  | succ fuel => rw [decDigits, if_pos h]

theorem decDigits_succ_of_le {v : Nat} (h : 10 ≤ v) (fuel : Nat) :
    decDigits (fuel + 1) v = decDigits fuel (v / 10) ++ [BitVec.ofNat 8 (0x30 + v % 10)] := by
  rw [decDigits, if_neg (Nat.not_lt_of_le h)]

/-- Induction over a decimal text: what holds of the one-digit texts, and of a text with one more digit when it holds of the
text before it, holds of a number and its text, if the fuel suffices for its digits. -/
theorem decDigits_induction {P : Nat → List Byte → Prop} (one : ∀ d < 10, P d [BitVec.ofNat 8 (0x30 + d)])
    (more : ∀ v bs, 10 ≤ v → P (v / 10) bs → P v (bs ++ [BitVec.ofNat 8 (0x30 + v % 10)])) (fuel : Nat) {v : Nat}
    (h : v < 10 ^ (fuel + 1)) : P v (decDigits fuel v) := by
  induction fuel generalizing v with
  | zero => exact decDigits_of_lt h 0 ▸ one v h
  | succ fuel ih =>
    rcases lt_or_ge v 10 with hv | hv
    · exact decDigits_of_lt hv _ ▸ one v hv
    · exact decDigits_succ_of_le hv fuel ▸ more v _ hv (ih (Nat.div_lt_of_lt_mul (pow_succ' 10 (fuel + 1) ▸ h)))

/-- The induction for a 32-bit value, whose ten digits `dec` has fuel for. -/
theorem dec_induction {P : Nat → List Byte → Prop} (one : ∀ d < 10, P d [BitVec.ofNat 8 (0x30 + d)])
    (more : ∀ v bs, 10 ≤ v → P (v / 10) bs → P v (bs ++ [BitVec.ofNat 8 (0x30 + v % 10)])) (w : Word) :
    P w.toNat (dec w) :=
  decDigits_induction one more 9 (w.isLt.trans (by decide))

theorem toNat_digit {d : Nat} (h : d < 10) : (BitVec.ofNat 8 (0x30 + d)).toNat = 0x30 + d :=
  (BitVec.toNat_ofNat _ _).trans (Nat.mod_eq_of_lt (by omega))

/-- R181: every byte is an ASCII digit. -/
theorem dec_isDigit (w : Word) : ∀ b ∈ dec w, 0x30 ≤ b.toNat ∧ b.toNat ≤ 0x39 := by
  have digit : ∀ d < 10, 0x30 ≤ (BitVec.ofNat 8 (0x30 + d)).toNat ∧ (BitVec.ofNat 8 (0x30 + d)).toNat ≤ 0x39 :=
    fun d hd => by rw [toNat_digit hd]; omega
  refine dec_induction (P := fun _ bs => ∀ b ∈ bs, 0x30 ≤ b.toNat ∧ b.toNat ≤ 0x39) (fun d hd => ?_) (fun v bs _ ih => ?_) w
  · exact List.forall_mem_singleton.mpr (digit d hd)
  · exact List.forall_mem_append.mpr ⟨ih, List.forall_mem_singleton.mpr (digit _ (Nat.mod_lt v (by decide)))⟩

/-- R181: read most significant digit first, the text has the value it was made from. -/
theorem dec_value (w : Word) : (dec w).foldl (fun acc b => 10 * acc + (b.toNat - 0x30)) 0 = w.toNat := by
  refine dec_induction (P := fun v bs => bs.foldl (fun acc b => 10 * acc + (b.toNat - 0x30)) 0 = v)
    (fun d hd => ?_) (fun v bs _ ih => ?_) w
  · rw [List.foldl_cons, List.foldl_nil, toNat_digit hd]; omega
  · rw [List.foldl_append, ih, List.foldl_cons, List.foldl_nil, toNat_digit (Nat.mod_lt v (by decide))]; omega

theorem dec_ne_nil (w : Word) : dec w ≠ [] := List.ne_nil_of_length_pos (dec_length_pos w)

/-- R181: only the text of 0 begins with the digit 0, since a longer text begins as that of `v / 10`, which is not 0. -/
theorem eq_zero_of_dec_head (w : Word) (h : (dec w).head? = some 0x30) : w = 0 := by
  have key : dec w ≠ [] ∧ ((dec w).head? = some 0x30 → w.toNat = 0) := by
    refine dec_induction (P := fun v bs => bs ≠ [] ∧ (bs.head? = some 0x30 → v = 0)) (fun d hd => ?_) (fun v bs hv ih => ?_) w
    · refine ⟨List.cons_ne_nil _ _, fun hh => ?_⟩
      have hd0 := congrArg BitVec.toNat (Option.some.inj hh)
      rw [toNat_digit hd] at hd0
      exact Nat.add_left_cancel hd0
    · refine ⟨List.append_ne_nil_of_left_ne_nil ih.1 _, fun hh => ?_⟩
      rw [List.head?_append_of_ne_nil _ ih.1] at hh
      have := ih.2 hh
      omega
  exact BitVec.eq_of_toNat_eq (key.2 h)

/-! ### The descriptor and FBTENC (R179, R180, R183) -/

/-- R183: eight texts of at least one digit. -/
theorem le_descriptor_length (t : FdTiming) : 108 ≤ (descriptor t).length := by
  have pos := dec_length_pos
  have := pos t.nom.prescaler
  have := pos t.nom.tseg1
  have := pos t.nom.tseg2
  have := pos t.nom.sjw
  have := pos t.data.prescaler
  have := pos t.data.tseg1
  have := pos t.data.tseg2
  have := pos t.data.sjw
  rw [descriptor_length]
  omega

/-- R180: the clock item has a constant value, so its text runs into the first key. -/
theorem clockItem_eq : keyFClock ++ dec (BitVec.ofNat 32 Config.fClock) ++ keyNomBrp = ascii "f_clock=80000000,nom_brp=" := by
  decide

theorem exec_fbtenc_of_inRange {s : State} (hv : s.fbt.v = true) (h : s.fbt.nom.InNominal ∧ s.fbt.data.InData) :
    exec .fbtenc s =
      .next ((s.writeBuf 0 (descriptor s.fbt ++ [0])).answer (BitVec.ofNat 32 (descriptor s.fbt).length)) := by
  rw [exec, execFbtenc, if_pos hv, if_pos (s.fbt.inRange_iff.mpr h)]

section Terminated
variable (s : State) (text : List Byte)

/-- A text written with a NUL reads back. -/
theorem State.bufByte_writeBuf_text {k : Nat} (h : k < text.length) : (s.writeBuf 0 (text ++ [0])).bufByte k = text[k] := by
  rw [State.bufByte_writeBuf_zero, List.getElem?_append_left h, List.getElem?_eq_getElem h, Option.getD_some]

theorem State.bufByte_writeBuf_nul : (s.writeBuf 0 (text ++ [0])).bufByte text.length = 0 := by
  rw [State.bufByte_writeBuf_zero, List.getElem?_concat_length, Option.getD_some]

theorem State.bufByte_writeBuf_past_nul {j : Nat} (h : text.length < j) :
    (s.writeBuf 0 (text ++ [0])).bufByte j = s.bufByte j :=
  State.bufByte_writeBuf_of_length_le (by rw [List.length_append]; exact h) s

/-- A text with its NUL and a returned value: what BUF reads as afterwards, and the rest of the state. -/
theorem State.writeBuf_text_answer {w : Word} {t : State} (ht : t = (s.writeBuf 0 (text ++ [0])).answer w) :
    t = { s with x := s.x.set 0 w, buf := t.buf, err := 0, einfo := 0 } ∧
    (∀ k (h : k < text.length), t.bufByte k = text[k]) ∧ t.bufByte text.length = 0x00 ∧
    ∀ j, text.length < j → t.bufByte j = s.bufByte j := by
  subst ht
  exact ⟨s.writeBuf_answer_eq _ _, fun _ => s.bufByte_writeBuf_text text, s.bufByte_writeBuf_nul text,
    fun _ => s.bufByte_writeBuf_past_nul text⟩

end Terminated

/-! ### The obligations -/

/-- Settles O58: the fixed part has 100 characters, and the bounds of the eight fields bound their decimal texts. -/
theorem descriptorFitsBuffer : Obligations.DescriptorFitsBuffer := fun t hnom hdata =>
  ⟨le_descriptor_length t, descriptor_length_le (t.inRange_iff.mpr ⟨hnom, hdata⟩)⟩

/-- Settles O59: by the induction over the digits; a text that begins with the digit 0 is that of 0. -/
theorem decimalTextOfValue : Obligations.DecimalTextOfValue := by
  refine fun w => ⟨dec_ne_nil w, dec_isDigit w, dec_value w, fun h => ?_, fun h => dec_length_le (by omega)⟩
  rw [eq_zero_of_dec_head w h]
  rfl

/-- Settles O56: the range check on X0 to X7 decides between the two stored phases and the error, whose index is that of the
first register out of its bounds. -/
theorem fbtnewStoresOrReports : Obligations.FbtnewStoresOrReports := by
  refine fun s => ⟨rfl, fun hin => ?_, fun k hk hin hout => ?_⟩
  · exact exec_fbtnew_of_inRange
      ⟨hin 0 (by decide), hin 1 (by decide), hin 2 (by decide), hin 3 (by decide)⟩
      ⟨hin 4 (by decide), hin 5 (by decide), hin 6 (by decide), hin 7 (by decide)⟩
  · refine exec_fbtnew_of_some ?_
    rw [fdBounds_eq, bothQuads_fields]
    refine firstOutOfBounds_of_first hk (by rwa [List.length_ofFn]) (fun j hj => ?_) ?_
    · simpa only [List.getElem_map, List.getElem_ofFn] using hin j hj
    · simpa only [List.getElem_map, List.getElem_ofFn] using hout

/-- Settles O57: the descriptor and its NUL are written at the start of BUF and the descriptor's length is answered. -/
theorem fbtencWritesDescriptor : Obligations.FbtencWritesDescriptor := by
  refine fun s => ⟨rfl, fun hv hnom hdata => ?_, fun hv => exec_of_sourceInvalid hv⟩
  refine ⟨_, descriptor s.fbt, ?_, exec_fbtenc_of_inRange hv ⟨hnom, hdata⟩, s.writeBuf_text_answer (descriptor s.fbt) rfl⟩
  rw [descriptor, clockItem_eq, keyNomTseg1, keyNomTseg2, keyNomSjw, keyDataBrp, keyDataTseg1, keyDataTseg2, keyDataSjw]

end Sys2Proof.Machine

/-! PROOF. The statement of spec/46_misc.md: NOP only reports success (R190). -/

namespace Sys2Proof.Machine

/-- R190: NOP answers every state, with success and no value. -/
theorem exec_nop (s : State) : exec .nop s = .next s.ok := rfl

/-! ### The obligation -/

/-- Settles O26: the word is 0, and NOP is `State.ok` alone, which is the two fields of STATUS set to 0. -/
theorem nopOnlyReportsSuccess : Obligations.NopOnlyReportsSuccess := by
  refine ⟨rfl, fun s => ?_⟩
  rw [exec_nop, State.ok]

end Sys2Proof.Machine

/-! PROOF. The statements of spec/60_exceptions.md: an error is precise (R203), it is one that R200 lists for the command, with
R202's information, or STATUS shows success (R204); a register that is not valid (R207) and a word that is no command (R206)
raise theirs. -/

namespace Sys2Proof.Machine

/-! ### How a command ends -/

/-- R203, R204: a command ends by raising an error it can raise, with that error's information, or STATUS shows success. -/
theorem Shape.raised_or_ok {i : Instr} {s t : State} (h : Shape i s t) :
    (∃ e n, canRaise e i = true ∧ infoOk i e n ∧ t = s.raise e n) ∨ (t.err = 0 ∧ t.einfo = 0) := by
  cases h with
  | raised e n can info => exact .inl ⟨e, n, can, info, rfl⟩
  | _ => exact .inr ⟨rfl, rfl⟩

/-- R75, R206: a word that is no command ends the step in `State.illegalCommand`, on the state without the access. -/
theorem step_of_undecodable {s : State} {w : Word} {r : Reject} {rest : List HostEvent} (hs : s.script = commandEvent w :: rest)
    (hw : decode w = .error r) : step s = .next (State.illegalCommand { s with script := rest }) := by
  simp only [step, fetch_command hs, hw]

/-! ### The obligations -/

/-- Settles O17: a command that did not succeed raised an error it can raise, and raising writes the two fields of STATUS alone. -/
theorem failedCommandChangesOnlyStatus : Obligations.FailedCommandChangesOnlyStatus := by
  intro i s t h herr
  obtain ⟨e, n, can, -, rfl⟩ | ⟨hok, -⟩ := (exec_next h).raised_or_ok
  · exact ⟨rfl, e, can, rfl⟩
  · exact absurd hok herr

/-- Settles O18: the error raised selects its row of R200, whose code and information it has; IllegalCommand is in no command's
row. -/
theorem statusDescribesTheCommand : Obligations.StatusDescribesTheCommand := by
  intro i s t h
  obtain ⟨e, n, can, info, rfl⟩ | hok := (exec_next h).raised_or_ok
  · cases e with
    | frameTooLarge => exact .inr (.inl ⟨can, rfl, info⟩)
    | timingOutOfBounds => exact .inr (.inr (.inl ⟨can, rfl, info⟩))
    | invalidSource => exact .inr (.inr (.inr (.inl ⟨can, rfl, info⟩)))
    | lengthCodeInvalid => exact .inr (.inr (.inr (.inr ⟨can, rfl, info⟩)))
    | illegalCommand => exact nomatch can
  · exact .inl hok

/-- Settles O19: the first source is checked before anything else, and the last clause of the rules of CFEQ and FFEQ is their
second source. -/
theorem invalidSourceRaises : Obligations.InvalidSourceRaises := by
  refine ⟨fun i s h => exec_of_sourceInvalid h, fun a b s ha hb => ?_, fun a b s ha hb => ?_⟩
  · obtain ⟨-, -, -, second⟩ := cfeqComparesFrames s a b
    exact second ha hb
  · obtain ⟨-, -, -, second⟩ := ffeqComparesFrames s a b
    exact second ha hb

/-- Settles O5: `State.illegalCommand` raises code 8 with information 0, which is all it writes. -/
theorem undecodableWordRaises : Obligations.UndecodableWordRaises :=
  fun _ _ _ _ hs hw => step_of_undecodable hs hw

end Sys2Proof.Machine

/-! PROOF. The statement of spec/70_reset_and_hazards.md: what the reset input leaves (R230, R231). -/

namespace Sys2Proof.Machine

/-- R231: after the reset input nothing of BUF is written, so each byte is the free one of the new reset count. -/
theorem State.bufByte_assertReset (s : State) (j : Nat) : s.assertReset.bufByte j = Config.bufInit (s.resets + 1) j := rfl

/-! ### The obligation -/

/-- Settles O12: the block's own fields are those of the reset state, whose values R36 gives; BUF is read at the next reset count,
and the host's side of the state is carried along. -/
theorem resetInputResets : Obligations.ResetInputResets := by
  intro s rest hs
  obtain ⟨hx, herr, heinfo, hstatus, hslots, hbt, hfbt⟩ := resetStateValues
  exact ⟨State.assertReset { s with script := rest }, step_of_done hs rfl, hx, herr, heinfo, hstatus, hslots, hbt, hfbt,
    State.bufByte_assertReset _, rfl, rfl, rfl⟩

end Sys2Proof.Machine
